-- ==== Sys2Proof/Word.lean ====
section
/-! DEFINITION. The word types of the machine (00_scope.md R4, R6, R7; 10_state.md R21). -/

namespace Sys2Proof

/-- A byte: a general register, the delay timer, a memory byte, an immediate `kk` (R4, R21). -/
abbrev Byte := BitVec 8

/-- A 16-bit word: an instruction word, `I`, `pc`, a call-stack slot (R4, R80). -/
abbrev Word := BitVec 16

/-- The number of a general register, V0 to VF (R21). -/
abbrev Reg := Fin 16

/-- The flag register VF, general register 15 (R22). -/
abbrev Reg.vf : Reg := 15

/-- A key value 0 to 15 (R38). -/
abbrev Key := Fin 16

end Sys2Proof
end

