-- ==== Sys2Proof/Syntax.lean ====
section
/-! DEFINITION. The 33 instructions, one constructor per row of spec/opcode_table.json (30_encoding.md R86). -/

namespace Sys2Proof

/-- An instruction. `x`, `y` name registers, `kk` is an immediate byte, `nnn` an address held as a 16-bit value whose
bits 15 to 12 are 0, `n` a count 0 to 15 (R81, R83); the last two bounds are checked by `Instr.wellFormed`. -/
inductive Instr where
  /-- 00E0 CLS, clear the display (R150). -/
  | cls
  /-- 00EE RET, return from subroutine (R100). -/
  | ret
  /-- 1nnn JP nnn (R101). -/
  | jp (nnn : Word)
  /-- 2nnn CALL nnn (R102). -/
  | call (nnn : Word)
  /-- 3xkk SE Vx, kk (R103). -/
  | seImm (x : Reg) (kk : Byte)
  /-- 4xkk SNE Vx, kk (R104). -/
  | sneImm (x : Reg) (kk : Byte)
  /-- 5xy0 SE Vx, Vy (R105). -/
  | seReg (x y : Reg)
  /-- 6xkk LD Vx, kk (R120). -/
  | ldImm (x : Reg) (kk : Byte)
  /-- 7xkk ADD Vx, kk (R121). -/
  | addImm (x : Reg) (kk : Byte)
  /-- 8xy0 LD Vx, Vy (R122). -/
  | ldReg (x y : Reg)
  /-- 8xy1 OR Vx, Vy (R123). -/
  | or (x y : Reg)
  /-- 8xy2 AND Vx, Vy (R124). -/
  | and (x y : Reg)
  /-- 8xy3 XOR Vx, Vy (R125). -/
  | xor (x y : Reg)
  /-- 8xy4 ADD Vx, Vy (R126). -/
  | addReg (x y : Reg)
  /-- 8xy5 SUB Vx, Vy (R127). -/
  | sub (x y : Reg)
  /-- 8xy6 SHR Vx, Vy (R128). -/
  | shr (x y : Reg)
  /-- 8xy7 SUBN Vx, Vy (R129). -/
  | subn (x y : Reg)
  /-- 8xyE SHL Vx, Vy (R130). -/
  | shl (x y : Reg)
  /-- 9xy0 SNE Vx, Vy (R106). -/
  | sneReg (x y : Reg)
  /-- Annn LD I, nnn (R140). -/
  | ldI (nnn : Word)
  /-- Bnnn JP V0, nnn (R107). -/
  | jpV0 (nnn : Word)
  /-- Cxkk RND Vx, kk (R131). -/
  | rnd (x : Reg) (kk : Byte)
  /-- Dxyn DRW Vx, Vy, n (R151). -/
  | drw (x y : Reg) (n : Nat)
  /-- Ex9E SKP Vx (R160). -/
  | skp (x : Reg)
  /-- ExA1 SKNP Vx (R161). -/
  | sknp (x : Reg)
  /-- Fx07 LD Vx, DT (R162). -/
  | ldVxDt (x : Reg)
  /-- Fx0A LD Vx, K (R163). -/
  | ldVxK (x : Reg)
  /-- Fx15 LD DT, Vx (R164). -/
  | ldDtVx (x : Reg)
  /-- Fx1E ADD I, Vx (R141). -/
  | addIVx (x : Reg)
  /-- Fx29 LD F, Vx (R142). -/
  | ldFVx (x : Reg)
  /-- Fx33 LD B, Vx (R143). -/
  | ldBVx (x : Reg)
  /-- Fx55 LD [I], Vx (R144). -/
  | ldImemVx (x : Reg)
  /-- Fx65 LD Vx, [I] (R145). -/
  | ldVxImem (x : Reg)
deriving DecidableEq, Repr

/-- The instruction's table id (R86, R90), as spec/opcode_table.json spells it. -/
def Instr.mnemonic : Instr → String
  | .cls => "CLS"
  | .ret => "RET"
  | .jp _ => "JP"
  | .call _ => "CALL"
  | .seImm _ _ => "SE_VX_KK"
  | .sneImm _ _ => "SNE_VX_KK"
  | .seReg _ _ => "SE_VX_VY"
  | .ldImm _ _ => "LD_VX_KK"
  | .addImm _ _ => "ADD_VX_KK"
  | .ldReg _ _ => "LD_VX_VY"
  | .or _ _ => "OR"
  | .and _ _ => "AND"
  | .xor _ _ => "XOR"
  | .addReg _ _ => "ADD_VX_VY"
  | .sub _ _ => "SUB"
  | .shr _ _ => "SHR"
  | .subn _ _ => "SUBN"
  | .shl _ _ => "SHL"
  | .sneReg _ _ => "SNE_VX_VY"
  | .ldI _ => "LD_I_NNN"
  | .jpV0 _ => "JP_V0"
  | .rnd _ _ => "RND"
  | .drw _ _ _ => "DRW"
  | .skp _ => "SKP"
  | .sknp _ => "SKNP"
  | .ldVxDt _ => "LD_VX_DT"
  | .ldVxK _ => "LD_VX_K"
  | .ldDtVx _ => "LD_DT_VX"
  | .addIVx _ => "ADD_I_VX"
  | .ldFVx _ => "LD_F_VX"
  | .ldBVx _ => "LD_B_VX"
  | .ldImemVx _ => "LD_IMEM_VX"
  | .ldVxImem _ => "LD_VX_IMEM"

end Sys2Proof
end

