-- ==== Sys2Proof/WellFormed.lean ====
section
/-! DEFINITION. Which instruction terms an encoding exists for: the operand bounds of 30_encoding.md R81 and R83 that
the operand's type does not already carry. -/

namespace Sys2Proof

/-- `nnn` is a 12-bit address: bits 15 to 12 of the 16-bit value are 0 (R81, R83). -/
def addressOk (nnn : Word) : Bool := decide (nnn.toNat < 0x1000)

/-- `n` is a count 0 to 15 (R81, R83). -/
def countOk (n : Nat) : Bool := decide (n < 16)

/-- The operands are in the ranges the encoding admits (R81, R83). -/
def Instr.wellFormed : Instr → Bool
  | .cls => true
  | .ret => true
  | .jp nnn => addressOk nnn
  | .call nnn => addressOk nnn
  | .seImm _ _ => true
  | .sneImm _ _ => true
  | .seReg _ _ => true
  | .ldImm _ _ => true
  | .addImm _ _ => true
  | .ldReg _ _ => true
  | .or _ _ => true
  | .and _ _ => true
  | .xor _ _ => true
  | .addReg _ _ => true
  | .sub _ _ => true
  | .shr _ _ => true
  | .subn _ _ => true
  | .shl _ _ => true
  | .sneReg _ _ => true
  | .ldI nnn => addressOk nnn
  | .jpV0 nnn => addressOk nnn
  | .rnd _ _ => true
  | .drw _ _ n => countOk n
  | .skp _ => true
  | .sknp _ => true
  | .ldVxDt _ => true
  | .ldVxK _ => true
  | .ldDtVx _ => true
  | .addIVx _ => true
  | .ldFVx _ => true
  | .ldBVx _ => true
  | .ldImemVx _ => true
  | .ldVxImem _ => true

end Sys2Proof
end

