-- ==== Sys2Proof/Decode.lean ====
section
/-! DEFINITION. The decoder and the encoder of instruction words (30_encoding.md R80 to R90; byte order 20_memory.md R57). -/

namespace Sys2Proof

/-- Why no instruction is read. -/
inductive DecodeError where
  /-- Fewer than two bytes are left (R80). -/
  | truncated
  /-- The word matches no row of R86; the machine executes it as a no-operation (R87). -/
  | unknownOpcode (op : Word)
deriving DecidableEq, Repr

/-- The register a 4-bit field names (R81). -/
def nibbleReg (b : BitVec 4) : Reg := ⟨b.toNat, b.isLt⟩

/-- The 4-bit field that names a register (R81). -/
def regNibble (r : Reg) : BitVec 4 := BitVec.ofNat 4 r.val

/-- `fam`, bits 15 to 12 (R81). -/
def fieldFam (op : Word) : BitVec 4 := op.extractLsb' 12 4

/-- `x`, bits 11 to 8 (R81). -/
def fieldX (op : Word) : Reg := nibbleReg (op.extractLsb' 8 4)

/-- `y`, bits 7 to 4 (R81). -/
def fieldY (op : Word) : Reg := nibbleReg (op.extractLsb' 4 4)

/-- The 4-bit field `n`, bits 3 to 0 (R81). -/
def fieldN (op : Word) : BitVec 4 := op.extractLsb' 0 4

/-- `kk`, bits 7 to 0 (R81). -/
def fieldKk (op : Word) : Byte := op.extractLsb' 0 8

/-- `nnn`, bits 11 to 0, as a 16-bit value whose bits 15 to 12 are 0 (R81, R83). -/
def fieldNnn (op : Word) : Word := (op.extractLsb' 0 12).setWidth 16

/-- Family 0: the full word selects (R85). -/
def decodeFam0 (op : Word) : Option Instr :=
  if op = 0x00E0 then some .cls
  else if op = 0x00EE then some .ret
  else none

/-- Family 8: the low digit selects (R85, `op & 0xF00F`). -/
def decodeFam8 (op : Word) : Option Instr :=
  match (fieldN op).toNat with
  | 0x0 => some (.ldReg (fieldX op) (fieldY op))
  | 0x1 => some (.or (fieldX op) (fieldY op))
  | 0x2 => some (.and (fieldX op) (fieldY op))
  | 0x3 => some (.xor (fieldX op) (fieldY op))
  | 0x4 => some (.addReg (fieldX op) (fieldY op))
  | 0x5 => some (.sub (fieldX op) (fieldY op))
  | 0x6 => some (.shr (fieldX op) (fieldY op))
  | 0x7 => some (.subn (fieldX op) (fieldY op))
  | 0xE => some (.shl (fieldX op) (fieldY op))
  | _ => none

/-- Family E: the low byte selects (R85, `op & 0xF0FF`). -/
def decodeFamE (op : Word) : Option Instr :=
  match (fieldKk op).toNat with
  | 0x9E => some (.skp (fieldX op))
  | 0xA1 => some (.sknp (fieldX op))
  | _ => none

/-- Family F: the low byte selects (R85, `op & 0xF0FF`). -/
def decodeFamF (op : Word) : Option Instr :=
  match (fieldKk op).toNat with
  | 0x07 => some (.ldVxDt (fieldX op))
  | 0x0A => some (.ldVxK (fieldX op))
  | 0x15 => some (.ldDtVx (fieldX op))
  | 0x1E => some (.addIVx (fieldX op))
  | 0x29 => some (.ldFVx (fieldX op))
  | 0x33 => some (.ldBVx (fieldX op))
  | 0x55 => some (.ldImemVx (fieldX op))
  | 0x65 => some (.ldVxImem (fieldX op))
  | _ => none

/-- The two-level dispatch of R85: the family, then the family's own selector. Families 5 and 9 want the low digit 0 (D6). -/
def decodeRow (op : Word) : Option Instr :=
  match (fieldFam op).toNat with
  | 0x0 => decodeFam0 op
  | 0x1 => some (.jp (fieldNnn op))
  | 0x2 => some (.call (fieldNnn op))
  | 0x3 => some (.seImm (fieldX op) (fieldKk op))
  | 0x4 => some (.sneImm (fieldX op) (fieldKk op))
  | 0x5 => if fieldN op = 0 then some (.seReg (fieldX op) (fieldY op)) else none
  | 0x6 => some (.ldImm (fieldX op) (fieldKk op))
  | 0x7 => some (.addImm (fieldX op) (fieldKk op))
  | 0x8 => decodeFam8 op
  | 0x9 => if fieldN op = 0 then some (.sneReg (fieldX op) (fieldY op)) else none
  | 0xA => some (.ldI (fieldNnn op))
  | 0xB => some (.jpV0 (fieldNnn op))
  | 0xC => some (.rnd (fieldX op) (fieldKk op))
  | 0xD => some (.drw (fieldX op) (fieldY op) (fieldN op).toNat)
  | 0xE => decodeFamE op
  | 0xF => decodeFamF op
  | _ => none

/-- Decoding a word, total: an instruction, or the word named as unknown (R85, R87). -/
def decode (op : Word) : Except DecodeError Instr :=
  match decodeRow op with
  | some i => .ok i
  | none => .error (.unknownOpcode op)

/-- Two bytes as they lie in memory, the one at the lower address first, read as a word: big-endian (R57). -/
def wordOfBytes (high low : Byte) : Word := high ++ low

/-- The byte of a word that lies at the lower address (R57). -/
def highByte (w : Word) : Byte := w.extractLsb' 8 8

/-- The byte of a word that lies at the higher address (R57). -/
def lowByte (w : Word) : Byte := w.extractLsb' 0 8

/-- Decoding a stream of bytes: the instruction, and the bytes after it (R57, R80). -/
def decodeBytes : List Byte → Except DecodeError (Instr × List Byte)
  | high :: low :: rest =>
    match decode (wordOfBytes high low) with
    | .ok i => .ok (i, rest)
    | .error e => .error e
  | _ => .error .truncated

/-- The word whose bits, numbered as spec/opcode_table.json numbers them, are the low `nbits` bits of `w`; bits above are 0. -/
def tableWord (nbits w : Nat) : Word := BitVec.ofNat 16 (w % 2 ^ nbits)

/-- What the decoder reads from an instruction whose table bits are `w`, laid out in memory order (R57). -/
def decodeTableWord (nbits w : Nat) : Option Instr :=
  match decodeBytes [highByte (tableWord nbits w), lowByte (tableWord nbits w)] with
  | .ok (i, _) => some i
  | .error _ => none

/-! The encoder, from the same formats (R82, R86). -/

/-- Format NNN (R82). -/
def encodeNnn (fam : BitVec 4) (nnn : Word) : Word := fam ++ nnn.extractLsb' 0 12

/-- Format XKK (R82). -/
def encodeXkk (fam : BitVec 4) (x : Reg) (kk : Byte) : Word := fam ++ regNibble x ++ kk

/-- Formats XYS and XYN (R82). -/
def encodeXyn (fam : BitVec 4) (x y : Reg) (n : BitVec 4) : Word := fam ++ regNibble x ++ regNibble y ++ n

/-- The word of an instruction (R86). -/
def encode : Instr → Word
  | .cls => 0x00E0
  | .ret => 0x00EE
  | .jp nnn => encodeNnn 0x1 nnn
  | .call nnn => encodeNnn 0x2 nnn
  | .seImm x kk => encodeXkk 0x3 x kk
  | .sneImm x kk => encodeXkk 0x4 x kk
  | .seReg x y => encodeXyn 0x5 x y 0x0
  | .ldImm x kk => encodeXkk 0x6 x kk
  | .addImm x kk => encodeXkk 0x7 x kk
  | .ldReg x y => encodeXyn 0x8 x y 0x0
  | .or x y => encodeXyn 0x8 x y 0x1
  | .and x y => encodeXyn 0x8 x y 0x2
  | .xor x y => encodeXyn 0x8 x y 0x3
  | .addReg x y => encodeXyn 0x8 x y 0x4
  | .sub x y => encodeXyn 0x8 x y 0x5
  | .shr x y => encodeXyn 0x8 x y 0x6
  | .subn x y => encodeXyn 0x8 x y 0x7
  | .shl x y => encodeXyn 0x8 x y 0xE
  | .sneReg x y => encodeXyn 0x9 x y 0x0
  | .ldI nnn => encodeNnn 0xA nnn
  | .jpV0 nnn => encodeNnn 0xB nnn
  | .rnd x kk => encodeXkk 0xC x kk
  | .drw x y n => encodeXyn 0xD x y (BitVec.ofNat 4 n)
  | .skp x => encodeXkk 0xE x 0x9E
  | .sknp x => encodeXkk 0xE x 0xA1
  | .ldVxDt x => encodeXkk 0xF x 0x07
  | .ldVxK x => encodeXkk 0xF x 0x0A
  | .ldDtVx x => encodeXkk 0xF x 0x15
  | .addIVx x => encodeXkk 0xF x 0x1E
  | .ldFVx x => encodeXkk 0xF x 0x29
  | .ldBVx x => encodeXkk 0xF x 0x33
  | .ldImemVx x => encodeXkk 0xF x 0x55
  | .ldVxImem x => encodeXkk 0xF x 0x65

/-- The bytes of an instruction in memory order, high byte first (R57, R80). -/
def encodeBytes (i : Instr) : List Byte := [highByte (encode i), lowByte (encode i)]

/-- A row of the opcode map: `op` selects it when `op & mask = match` (R86). -/
structure OpcodeRow where
  mnemonic : String
  mask : Word
  pattern : Word
deriving DecidableEq, Repr

/-- The opcode map of R86, in its order: the clear form of what `decodeRow` computes by families. -/
def opcodeRows : List OpcodeRow := [
  ⟨"CLS", 0xFFFF, 0x00E0⟩, ⟨"RET", 0xFFFF, 0x00EE⟩, ⟨"JP", 0xF000, 0x1000⟩,
  ⟨"CALL", 0xF000, 0x2000⟩, ⟨"SE_VX_KK", 0xF000, 0x3000⟩, ⟨"SNE_VX_KK", 0xF000, 0x4000⟩,
  ⟨"SE_VX_VY", 0xF00F, 0x5000⟩, ⟨"LD_VX_KK", 0xF000, 0x6000⟩, ⟨"ADD_VX_KK", 0xF000, 0x7000⟩,
  ⟨"LD_VX_VY", 0xF00F, 0x8000⟩, ⟨"OR", 0xF00F, 0x8001⟩, ⟨"AND", 0xF00F, 0x8002⟩,
  ⟨"XOR", 0xF00F, 0x8003⟩, ⟨"ADD_VX_VY", 0xF00F, 0x8004⟩, ⟨"SUB", 0xF00F, 0x8005⟩,
  ⟨"SHR", 0xF00F, 0x8006⟩, ⟨"SUBN", 0xF00F, 0x8007⟩, ⟨"SHL", 0xF00F, 0x800E⟩,
  ⟨"SNE_VX_VY", 0xF00F, 0x9000⟩, ⟨"LD_I_NNN", 0xF000, 0xA000⟩, ⟨"JP_V0", 0xF000, 0xB000⟩,
  ⟨"RND", 0xF000, 0xC000⟩, ⟨"DRW", 0xF000, 0xD000⟩, ⟨"SKP", 0xF0FF, 0xE09E⟩,
  ⟨"SKNP", 0xF0FF, 0xE0A1⟩, ⟨"LD_VX_DT", 0xF0FF, 0xF007⟩, ⟨"LD_VX_K", 0xF0FF, 0xF00A⟩,
  ⟨"LD_DT_VX", 0xF0FF, 0xF015⟩, ⟨"ADD_I_VX", 0xF0FF, 0xF01E⟩, ⟨"LD_F_VX", 0xF0FF, 0xF029⟩,
  ⟨"LD_B_VX", 0xF0FF, 0xF033⟩, ⟨"LD_IMEM_VX", 0xF0FF, 0xF055⟩, ⟨"LD_VX_IMEM", 0xF0FF, 0xF065⟩]

end Sys2Proof
end

