-- ==== Sys2Proof/Config.lean ====
section
/-! DEFINITION. What the spec fixes for the machine (00_scope.md R4, R5) and the environment's free inputs. -/

namespace Sys2Proof

/-- MEMSIZE: bytes of memory (R4, R50). -/
def Config.memSize : Nat := 4096

/-- The highest address a byte backs, 0xFFF (R50). -/
def Config.lastAddress : Nat := 0xFFF

/-- STACKDEPTH: call-stack entries (R4, R29). -/
def Config.stackDepth : Nat := 16

/-- PC_RESET (R4, R41). -/
def Config.pcReset : Word := 0x200

/-- LOAD_BASE: the first byte of a loaded program (R4, R53). -/
def Config.loadBase : Nat := 0x200

/-- The largest program image that fits, 4096 - 512 bytes (R53, R223). -/
def Config.maxRom : Nat := 3584

/-- FONT_BASE: the first byte of the font (R4, R52). DESIGN CHOICE of the spec, D12; unsafe: log 8. -/
def Config.fontBase : Nat := 0x050

/-- GLYPH_BYTES: bytes of one glyph (R4, R52). -/
def Config.glyphBytes : Nat := 5

/-- Bytes of the whole font, 16 glyphs of 5 bytes (R51, R52). -/
def Config.fontBytes : Nat := 80

/-- MEM_FILL: a byte that neither font nor program covers (R5, R222). DESIGN CHOICE of the spec, D11; unsafe: log 7. -/
def Config.memFill : Byte := 0x00

/-- FONT_DATA at its default, the conventional font of R52. PRESUMED (the family's font, not in the source); unsafe: log 6.
A reset turn carries its own font, so no statement about a launch depends on these bytes. -/
def Config.fontData : Vector Byte 80 := #v[
  0xF0, 0x90, 0x90, 0x90, 0xF0,
  0x20, 0x60, 0x20, 0x20, 0x70,
  0xF0, 0x10, 0xF0, 0x80, 0xF0,
  0xF0, 0x10, 0xF0, 0x10, 0xF0,
  0x90, 0x90, 0xF0, 0x10, 0x10,
  0xF0, 0x80, 0xF0, 0x10, 0xF0,
  0xF0, 0x80, 0xF0, 0x90, 0xF0,
  0xF0, 0x10, 0x20, 0x40, 0x40,
  0xF0, 0x90, 0xF0, 0x90, 0xF0,
  0xF0, 0x90, 0xF0, 0x10, 0xF0,
  0xF0, 0x90, 0xF0, 0x90, 0x90,
  0xE0, 0x90, 0xE0, 0x90, 0xE0,
  0xF0, 0x80, 0x80, 0x80, 0xF0,
  0xE0, 0x90, 0x90, 0x90, 0xE0,
  0xF0, 0x80, 0xF0, 0x80, 0xF0,
  0xF0, 0x80, 0xF0, 0x80, 0x80]

/-- What the outside makes the machine do at one step: the four inputs of 10_state.md R39. -/
inductive Turn where
  /-- One instruction step (R84). -/
  | cycle
  /-- One timer step, which is also a tick boundary (R193, R201). -/
  | tick
  /-- The host raises the stop request (R201). -/
  | stop
  /-- The host re-creates the machine with this font and this program image (R220, R222). -/
  | reset (font : Vector Byte 80) (rom : List Byte)
deriving DecidableEq, Repr, Inhabited

/-- Everything the environment decides for one step (R39): which step it is, and the answers it gives to the
transactions that step may make. One instruction makes at most one query, so one answer of each kind is enough. -/
structure Input where
  /-- Which step happens (R194: any interleaving). -/
  turn : Turn
  /-- The key state at the moment of a `kbd.is_pressed` query (R38, R198). -/
  keys : Vector Bool 16
  /-- The answer to a `kbd.any_pressed` query: none, or a key (R199). -/
  anyPressed : Option Key
  /-- The answer to an `rng.byte` request (R200). -/
  randomByte : Byte
deriving DecidableEq, Repr, Inhabited

/-- The environment's input at the n-th step, FREE: no body, nothing is known of it (R5 IPT, RAND, KEYS; D9, D14, D15, D24).
Log 1 to 5. -/
opaque Config.input : Nat → Input

end Sys2Proof
end

