-- ==== Sys2Proof/Machine/State.lean ====
section
/-! DEFINITION. The state of the machine (10_state.md R20 to R41), as plain data, and its value after reset (R41). -/

namespace Sys2Proof.Machine

/-- Memory: (address, byte) pairs, addresses rising, no pair equal to what an unlisted address reads as (R32, R50). -/
abbrev Memory := List Host.Cell

/-- The frame buffer: 32 rows of 64 one-bit pixels, row 0 at the top, column 0 at the left (R37). -/
abbrev Screen := Vector (Vector Bool 64) 32

/-- The five causes of a fatal condition (R186). -/
inductive Cause where
  /-- CALL with `sp = 16` (R181). -/
  | stackOverflow
  /-- RET with `sp = 0` (R182). -/
  | stackUnderflow
  /-- A fetch with `pc ≥ 0xFFF` (R183). -/
  | addressFetch
  /-- DRW, LD B, LD [I],Vx or LD Vx,[I] whose highest address exceeds 0xFFF (R184). -/
  | addressData
  /-- SKP or SKNP with `V[x] > 15` (R185). -/
  | keyIndex
deriving DecidableEq, Repr

/-- The code of a cause (R186; the spec's own labels, D16). -/
def Cause.code : Cause → Nat
  | .stackOverflow => 1
  | .stackUnderflow => 2
  | .addressFetch => 3
  | .addressData => 4
  | .keyIndex => 5

/-- The fault record (R33, R186). -/
structure FaultRecord where
  /-- The cause. -/
  cause : Cause
  /-- The address the offending instruction was fetched from; for a fetch fault, `pc`. -/
  addr : Word
  /-- The instruction's word; absent for a fetch fault. -/
  opcode : Option Word
deriving DecidableEq, Repr

/-- The run state (R33). -/
inductive RunState where
  /-- Instruction steps and tick steps can happen. -/
  | running
  /-- A fatal condition has ended the run; only a reset leaves this state (R189). -/
  | halted (record : FaultRecord)
  /-- The host's stop request has ended the run; only a reset leaves this state (R201). -/
  | stopped
deriving DecidableEq, Repr

/-- The copy of the state that `diag.fatal` carries (R33, R188). -/
structure Snapshot where
  V : Vector Byte 16
  I : Word
  pc : Word
  stack : Vector Word 16
  sp : Fin 17
  dt : Byte
  mem : Memory
  fb : Screen
deriving DecidableEq, Repr

/-- The output events of R39 that carry diagnostics. -/
inductive Diagnostic where
  /-- An unknown opcode was executed as a no-operation (R87). -/
  | unknown (addr op : Word)
  /-- A fatal condition was raised (R188). -/
  | fatal (record : FaultRecord) (snapshot : Snapshot)
deriving DecidableEq, Repr

/-- The machine's state (R20, R37), the host's pending stop request (R201), the diagnostics emitted so far (R39), and the
model's own two fields from which a step takes its environment's input. -/
structure State where
  /-- General registers V0 to VF (R21). -/
  V : Vector Byte 16
  /-- Index register (R25). -/
  I : Word
  /-- Program counter (R26). -/
  pc : Word
  /-- Call-stack slots (R29). -/
  stack : Vector Word 16
  /-- Call-stack depth, 0 to 16 (R29). -/
  sp : Fin 17
  /-- Delay timer (R30). -/
  dt : Byte
  /-- Memory (R32). -/
  mem : Memory
  /-- Run state with the fault record (R33). -/
  run : RunState
  /-- Frame buffer (R37). -/
  fb : Screen
  /-- The host has raised the stop request and no tick boundary has come since (R201). Log 11. -/
  stopRequested : Bool
  /-- Diagnostics emitted so far, the newest first (R39). Log 13. -/
  diag : List Diagnostic
  /-- The model's own: inputs fixed beforehand for the coming steps, the next step's first. Log 1. -/
  inputs : List Input
  /-- The model's own: how many inputs the steps so far have consumed. Log 1. -/
  inputCount : Nat
deriving DecidableEq, Repr

/-- Why a step would stop with a Lean fault: NO reason exists, the type has no constructor. Each of the spec's five fatal
conditions is taken as the spec describes it, a next state whose `run` is Halted (R188), so nothing raises a fault and no
run can end in one. Safe: log 9. -/
inductive Fault : Type
deriving DecidableEq, Repr

/-- Why a step has no next state. -/
inductive Refusal where
  /-- Raised by an arm of `exec` for an instruction without a meaning; every instruction has one, so no arm raises it. Safe. -/
  | notModelled (mnemonic : String)
  /-- Raised by a reset turn whose program image is longer than 3584 bytes: no launch state exists for it (R223, U2). Safe. -/
  | romTooLong
deriving DecidableEq, Repr

/-- The machine right after reset with an empty program image: R41, row by row. -/
def State.reset : State where
  V := Vector.replicate 16 0
  I := 0
  pc := Config.pcReset
  stack := Vector.replicate 16 0
  sp := 0
  dt := 0
  mem := []
  run := .running
  fb := Vector.replicate 32 (Vector.replicate 64 false)
  stopRequested := false
  diag := []
  inputs := []
  inputCount := 0

end Sys2Proof.Machine
end

