-- ==== Sys2Proof/Machine/Ops.lean ====
section
/-! DEFINITION. The named operations over memory, screen, registers, call stack and inputs; raising a fatal condition;
and the launch, the only way out of Halted and Stopped. -/

namespace Sys2Proof.Machine

/-! ## Memory (20_memory.md) -/

/-- What an address that is not listed reads as: the reset image of R41, the font at 0x050 to 0x09F, MEM_FILL elsewhere. -/
def Memory.unlisted (a : Nat) : Byte :=
  if Config.fontBase ≤ a then (Config.fontData[a - Config.fontBase]?).getD Config.memFill else Config.memFill

/-- `mem[a]` (R55). The accessors are called only with addresses up to 0xFFF (R60). -/
def Memory.read : Memory → Nat → Byte
  | [], a => Memory.unlisted a
  | (k, b) :: rest, a => if k = a then b else Memory.read rest a

/-- The memory without the pair of address `a`, so that `a` is unlisted. -/
def Memory.erase : Memory → Nat → Memory
  | [], _ => []
  | (k, b) :: rest, a => if k = a then Memory.erase rest a else (k, b) :: Memory.erase rest a

/-- The pair (a, v) put before the first higher address. -/
def Memory.insert : Memory → Nat → Byte → Memory
  | [], a, v => [(a, v)]
  | (k, b) :: rest, a, v => if a < k then (a, v) :: (k, b) :: rest else (k, b) :: Memory.insert rest a v

/-- `mem[a] <- v`, keeping the canonical form: a byte equal to what the unlisted address reads as is not listed (R56). -/
def Memory.write (m : Memory) (a : Nat) (v : Byte) : Memory :=
  if v = Memory.unlisted a then Memory.erase m a else Memory.insert (Memory.erase m a) a v

/-- The canonical form from address `low` on: rising addresses that exist, no byte that an unlisted address reads as. -/
def Memory.wfFrom : Nat → Memory → Bool
  | _, [] => true
  | low, (k, b) :: rest =>
    decide (low ≤ k) && decide (k ≤ Config.lastAddress) && decide (b ≠ Memory.unlisted k) && Memory.wfFrom (k + 1) rest

/-- The canonical form of memory: equal memories are equal lists. -/
def Memory.wf (m : Memory) : Bool := Memory.wfFrom 0 m

/-- Bytes stored one by one at `a`, `a + 1`, ... in ascending order (R60). -/
def Memory.writeBytes : Memory → Nat → List Byte → Memory
  | m, _, [] => m
  | m, a, b :: rest => Memory.writeBytes (Memory.write m a b) (a + 1) rest

/-- `n` bytes loaded one by one from `a`, `a + 1`, ... in ascending order (R60). -/
def Memory.readBytes (m : Memory) : Nat → Nat → List Byte
  | _, 0 => []
  | a, n + 1 => Memory.read m a :: Memory.readBytes m (a + 1) n

/-- The launch image of R222: MEM_FILL everywhere, then the font at FONT_BASE, then the program from LOAD_BASE. -/
def Memory.launch (font : Vector Byte 80) (rom : List Byte) : Memory :=
  Memory.writeBytes (Memory.writeBytes [] Config.fontBase font.toList) Config.loadBase rom

/-- The byte a read at `a` gives in state `s` (R55). -/
def State.byteAt (s : State) (a : Nat) : Byte := Memory.read s.mem a

/-! ## The screen (60_exceptions.md R196, R197) -/

/-- Every pixel off. -/
def Screen.off : Screen := Vector.replicate 32 (Vector.replicate 64 false)

/-- `fb[py][px]` (R37). -/
def Screen.pixel (fb : Screen) (px : Fin 64) (py : Fin 32) : Bool := fb[py.val][px.val]

/-- `disp.toggle(px, py)` on the frame buffer: that pixel is flipped, no other changes (R196). -/
def Screen.toggle (fb : Screen) (px : Fin 64) (py : Fin 32) : Screen :=
  fb.set py.val (fb[py.val].set px.val (!fb[py.val][px.val]))

/-! ## Registers -/

/-- Read of general register `r` (R8 `V[i]`, R21). -/
def State.reg (s : State) (r : Reg) : Byte := s.V[r.val]

/-- Write of general register `r` (R8 `V[i] <- v`, R21). -/
def State.setReg (s : State) (r : Reg) (b : Byte) : State := { s with V := s.V.set r.val b }

/-- `I <- w` (R25). -/
def State.setI (s : State) (w : Word) : State := { s with I := w }

/-- `pc <- w` (R26). -/
def State.setPc (s : State) (w : Word) : State := { s with pc := w }

/-- `dt <- b` (R30). -/
def State.setDt (s : State) (b : Byte) : State := { s with dt := b }

/-- The frame buffer replaced (R37). -/
def State.setFb (s : State) (fb : Screen) : State := { s with fb := fb }

/-- Bytes stored to memory at `a`, `a + 1`, ... (R56, R60). -/
def State.store (s : State) (a : Nat) (bs : List Byte) : State := { s with mem := Memory.writeBytes s.mem a bs }

/-- The fetch advance, and once more for a skip: `pc <- pc + 2` (R84, R109). -/
def State.advance (s : State) : State := { s with pc := s.pc + 2 }

/-- Back to the instruction just fetched: `pc <- pc - 2` (R163). -/
def State.rewind (s : State) : State := { s with pc := s.pc - 2 }

/-- A skip when the condition holds: two more bytes, nothing else (R109). -/
def State.skipIf (s : State) (c : Bool) : State := if c then s.advance else s

/-! ## The call stack (10_state.md R29) -/

/-- The newest return address, `stack[sp - 1]`. -/
def State.top (s : State) : Word := s.stack[s.sp.val - 1]'(by have := s.sp.isLt; omega)

/-- `stack[sp] <- w; sp <- sp + 1`, used when `sp < 16` only. -/
def State.push (s : State) (w : Word) : State :=
  { s with stack := s.stack.setIfInBounds s.sp.val w
           sp := ⟨min (s.sp.val + 1) 16, by omega⟩ }

/-- `pc <- stack[sp - 1]; sp <- sp - 1`, used when `sp > 0` only; the popped slot keeps its value. -/
def State.pop (s : State) : State :=
  { s with pc := s.top
           sp := ⟨s.sp.val - 1, by have := s.sp.isLt; omega⟩ }

/-! ## The environment's input -/

/-- The input the next step takes: the first of those fixed beforehand, or else a free one. -/
def State.input (s : State) : Input := s.inputs.headD (Config.input s.inputCount)

/-- The step's input is used up. -/
def State.consumeInput (s : State) : State := { s with inputs := s.inputs.tail, inputCount := s.inputCount + 1 }

/-- `kbd.is_pressed(k)`: the key's state in the step's input (R198). -/
def State.isPressed (s : State) (k : Key) : Bool := s.input.keys[k.val]

/-- `kbd.any_pressed()`: the step's input answers (R199). -/
def State.anyPressed (s : State) : Option Key := s.input.anyPressed

/-- `rng.byte()`: the step's input answers (R200). -/
def State.randomByte (s : State) : Byte := s.input.randomByte

/-! ## Diagnostics and fatal conditions (60_exceptions.md R188) -/

/-- An output event is emitted (R39). -/
def State.emit (s : State) (d : Diagnostic) : State := { s with diag := d :: s.diag }

/-- The copy of the state that `diag.fatal` carries (R188). -/
def State.snapshot (s : State) : Snapshot :=
  { V := s.V, I := s.I, pc := s.pc, stack := s.stack, sp := s.sp, dt := s.dt, mem := s.mem, fb := s.fb }

/-- `raise`: the run halts with the record, `diag.fatal` is emitted once with the record and a copy of the state, and
nothing else changes (R188). Every fatal condition is taken through here. -/
def State.raise (s : State) (record : FaultRecord) : State :=
  { s with run := .halted record, diag := .fatal record s.snapshot :: s.diag }

/-- `raise cause(a, op)` inside instruction `i`, whose fetch has already advanced `pc`: `a` is `pc - 2` and `op` the
instruction's word (R84, R186). Log 14. -/
def State.fatal (s : State) (cause : Cause) (i : Instr) : State :=
  s.raise ⟨cause, s.pc - 2, some (encode i)⟩

/-- There is no return from a fatal condition (R189); its only exit is the launch: everything of R20 is re-created at the
values of R41, with memory from the font and the program (R220, R222). The model's input fields and the diagnostics
already emitted are not part of the machine and stay. Log 12. -/
def State.launch (s : State) (font : Vector Byte 80) (rom : List Byte) : State :=
  { State.reset with
    mem := Memory.launch font rom
    diag := s.diag
    inputs := s.inputs
    inputCount := s.inputCount }

end Sys2Proof.Machine
end

