-- ==== Sys2Proof/Machine/Operands.lean ====
section
/-! DEFINITION. The operand forms: what an instruction computes from its fields before it acts (30_encoding.md R83,
42_index_memory.md R146). -/

namespace Sys2Proof.Machine

/-- `zext_16` of a byte (R7). -/
def zext16 (b : Byte) : Word := b.setWidth 16

/-- FONT_BASE + 5 * (v & 0xF), the address of a glyph (R142). -/
def glyphAddress (v : Byte) : Word := BitVec.ofNat 16 (Config.fontBase + Config.glyphBytes * (v &&& 0x0F).toNat)

/-- The three decimal digits of a byte, hundreds first, one per byte (R143). -/
def bcdDigits (v : Byte) : List Byte :=
  [BitVec.ofNat 8 (v.toNat / 100), BitVec.ofNat 8 (v.toNat / 10 % 10), BitVec.ofNat 8 (v.toNat % 10)]

/-- A key number: a value above 15 is none (R160, R185). -/
def keyNumber (v : Byte) : Option Key := if h : v.toNat < 16 then some ⟨v.toNat, h⟩ else none

/-- A byte that holds a key value (R163). -/
def keyByte (k : Key) : Byte := BitVec.ofNat 8 k.val

/-- The address in `I`, a natural number that does not wrap (R60, R146). -/
def State.index (s : State) : Nat := s.I.toNat

/-- Whether the address range whose highest address is `hi` reaches beyond 0xFFF (R60). -/
def beyondMemory (hi : Nat) : Bool := decide (Config.lastAddress < hi)

/-- Whether `n` bytes at `I` reach beyond 0xFFF; no bytes reach nowhere (R151, R154). -/
def State.spriteBeyond (s : State) (n : Nat) : Bool := decide (0 < n) && beyondMemory (s.index + n - 1)

/-- Registers V0 to Vx, in order: the bytes of `LD [I], Vx` (R144). -/
def State.regsUpTo (s : State) (x : Reg) : List Byte := s.V.toList.take (x.val + 1)

/-- V0, V1, ... overwritten in order by the bytes given, the rest kept (R145). -/
def loadRegs (V : Vector Byte 16) : Nat → List Byte → Vector Byte 16
  | _, [] => V
  | r, b :: rest => loadRegs (V.setIfInBounds r b) (r + 1) rest

end Sys2Proof.Machine
end

