-- ==== Sys2Proof/Machine/Flags.lean ====
section
/-! DEFINITION. Results and flags of the register instructions (41_alu.md R132, R133): operands are natural numbers, a
result is narrowed once, at the end. -/

namespace Sys2Proof.Machine

/-- A flag as the byte VF holds: exactly 0 or 1 (R22). -/
def flagByte (c : Bool) : Byte := if c then 1 else 0

/-- The sum modulo 256 (R126, R133). -/
def sumByte (a b : Byte) : Byte := BitVec.ofNat 8 (a.toNat + b.toNat)

/-- The carry: the true sum exceeds 255 (R126). -/
def carry (a b : Byte) : Byte := flagByte (decide (a.toNat + b.toNat > 255))

/-- `(a - b) mod 256` (R7, R133). -/
def differenceByte (a b : Byte) : Byte := BitVec.ofNat 8 (a.toNat + 256 - b.toNat)

/-- Not-borrow: 1 exactly when `a ≥ b` (R127, R129, R133). -/
def notBorrow (a b : Byte) : Byte := flagByte (decide (a.toNat ≥ b.toNat))

/-- One bit position to the right, bit 7 becomes 0 (R128). -/
def shiftRightByte (a : Byte) : Byte := BitVec.ofNat 8 (a.toNat / 2)

/-- One bit position to the left, bit 0 becomes 0 (R130). -/
def shiftLeftByte (a : Byte) : Byte := BitVec.ofNat 8 (a.toNat * 2)

/-- The bit that a right shift moves out, bit 0 (R128). -/
def lowBit (a : Byte) : Byte := flagByte (a.getLsbD 0)

/-- The bit that a left shift moves out, bit 7 (R130). -/
def highBit (a : Byte) : Byte := flagByte (a.getLsbD 7)

/-- The two writes of the flag template: the result to `V[x]`, then the flag to VF, so that with `x = 0xF` VF ends as the
flag (R23, R132; the spec's decision D5, log 8). -/
def State.setResultFlag (s : State) (x : Reg) (result flag : Byte) : State :=
  (s.setReg x result).setReg Reg.vf flag

end Sys2Proof.Machine
end

