-- ==== Sys2Proof/Machine/Alu.lean ====
section
/-! DEFINITION. Register load, arithmetic, logic, shifts, random (41_alu.md). -/

namespace Sys2Proof.Machine

/-- LD Vx, kk (R120). -/
def execLdImm (x : Reg) (kk : Byte) (s : State) : Host.Outcome State Fault Refusal :=
  .next (s.setReg x kk)

/-- ADD Vx, kk (R121): no flag. -/
def execAddImm (x : Reg) (kk : Byte) (s : State) : Host.Outcome State Fault Refusal :=
  .next (s.setReg x (sumByte (s.reg x) kk))

/-- LD Vx, Vy (R122). -/
def execLdReg (x y : Reg) (s : State) : Host.Outcome State Fault Refusal :=
  .next (s.setReg x (s.reg y))

/-- OR Vx, Vy (R123). -/
def execOr (x y : Reg) (s : State) : Host.Outcome State Fault Refusal :=
  .next (s.setResultFlag x (s.reg x ||| s.reg y) 0)

/-- AND Vx, Vy (R124). -/
def execAnd (x y : Reg) (s : State) : Host.Outcome State Fault Refusal :=
  .next (s.setResultFlag x (s.reg x &&& s.reg y) 0)

/-- XOR Vx, Vy (R125). -/
def execXor (x y : Reg) (s : State) : Host.Outcome State Fault Refusal :=
  .next (s.setResultFlag x (s.reg x ^^^ s.reg y) 0)

/-- ADD Vx, Vy (R126). -/
def execAddReg (x y : Reg) (s : State) : Host.Outcome State Fault Refusal :=
  .next (s.setResultFlag x (sumByte (s.reg x) (s.reg y)) (carry (s.reg x) (s.reg y)))

/-- SUB Vx, Vy (R127). -/
def execSub (x y : Reg) (s : State) : Host.Outcome State Fault Refusal :=
  .next (s.setResultFlag x (differenceByte (s.reg x) (s.reg y)) (notBorrow (s.reg x) (s.reg y)))

/-- SHR Vx, Vy (R128): the source is Vy. -/
def execShr (x y : Reg) (s : State) : Host.Outcome State Fault Refusal :=
  .next (s.setResultFlag x (shiftRightByte (s.reg y)) (lowBit (s.reg y)))

/-- SUBN Vx, Vy (R129). -/
def execSubn (x y : Reg) (s : State) : Host.Outcome State Fault Refusal :=
  .next (s.setResultFlag x (differenceByte (s.reg y) (s.reg x)) (notBorrow (s.reg y) (s.reg x)))

/-- SHL Vx, Vy (R130): the source is Vy. -/
def execShl (x y : Reg) (s : State) : Host.Outcome State Fault Refusal :=
  .next (s.setResultFlag x (shiftLeftByte (s.reg y)) (highBit (s.reg y)))

/-- RND Vx, kk (R131): the byte is the environment's. -/
def execRnd (x : Reg) (kk : Byte) (s : State) : Host.Outcome State Fault Refusal :=
  .next (s.setReg x (s.randomByte &&& kk))

end Sys2Proof.Machine
end

