-- ==== Sys2Proof/Machine/Display.lean ====
section
/-! DEFINITION. Display instructions (43_display.md). -/

namespace Sys2Proof.Machine

/-- A draw in progress: the frame buffer, and whether a pixel that was on has gone off so far (R153). -/
structure Canvas where
  fb : Screen
  collision : Bool
deriving DecidableEq, Repr

/-- The column that sprite column `col` lands on: every pixel wraps (R152). -/
def pixelColumn (x0 : Byte) (col : Nat) : Fin 64 := ⟨(x0.toNat % 64 + col) % 64, Nat.mod_lt _ (by decide)⟩

/-- The row that sprite row `row` lands on: every pixel wraps (R152). -/
def pixelRow (y0 : Byte) (row : Nat) : Fin 32 := ⟨(y0.toNat % 32 + row) % 32, Nat.mod_lt _ (by decide)⟩

/-- `disp.toggle` and the collision test: an answer of 0 means the pixel was on (R151, R153, R196). -/
def Canvas.toggle (c : Canvas) (px : Fin 64) (py : Fin 32) : Canvas :=
  { fb := c.fb.toggle px py, collision := c.collision || !(c.fb.toggle px py).pixel px py }

/-- One pixel of a sprite byte: bit `7 - col` is column `col`; a zero bit does nothing (R151, R152; the spec's decision
D10, log 15). -/
def Canvas.drawBit (c : Canvas) (b : Byte) (x0 : Byte) (py : Fin 32) (col : Nat) : Canvas :=
  if b.getLsbD (7 - col) then c.toggle (pixelColumn x0 col) py else c

/-- One sprite row, left to right (R151). -/
def Canvas.drawByte (c : Canvas) (b : Byte) (x0 : Byte) (py : Fin 32) : Canvas :=
  (List.range 8).foldl (fun c col => c.drawBit b x0 py col) c

/-- The sprite rows from `row` on, top to bottom (R151). -/
def Canvas.drawRows (c : Canvas) (x0 y0 : Byte) : Nat → List Byte → Canvas
  | _, [] => c
  | row, b :: rest => Canvas.drawRows (c.drawByte b x0 (pixelRow y0 row)) x0 y0 (row + 1) rest

/-- CLS (R150). -/
def execCls (s : State) : Host.Outcome State Fault Refusal :=
  .next (s.setFb Screen.off)

/-- DRW Vx, Vy, n (R151 to R154): the position is read before VF is written; VF ends as the collision flag. -/
def execDrw (x y : Reg) (n : Nat) (s : State) : Host.Outcome State Fault Refusal :=
  .next (if s.spriteBeyond n then s.fatal .addressData (.drw x y n)
    else
      let drawn := Canvas.drawRows ⟨s.fb, false⟩ (s.reg x) (s.reg y) 0 (Memory.readBytes s.mem s.index n)
      (s.setFb drawn.fb).setReg Reg.vf (flagByte drawn.collision))

end Sys2Proof.Machine
end

