-- ==== Sys2Proof/Machine/Flow.lean ====
section
/-! DEFINITION. Control transfer (40_flow.md). On entry `pc` is already the address of the instruction plus 2 (R84). -/

namespace Sys2Proof.Machine

/-- RET (R100). -/
def execRet (s : State) : Host.Outcome State Fault Refusal :=
  .next (if s.sp.val = 0 then s.fatal .stackUnderflow .ret else s.pop)

/-- JP nnn (R101). -/
def execJp (nnn : Word) (s : State) : Host.Outcome State Fault Refusal :=
  .next (s.setPc nnn)

/-- CALL nnn (R102). -/
def execCall (nnn : Word) (s : State) : Host.Outcome State Fault Refusal :=
  .next (if s.sp.val = Config.stackDepth then s.fatal .stackOverflow (.call nnn) else (s.push s.pc).setPc nnn)

/-- SE Vx, kk (R103). -/
def execSeImm (x : Reg) (kk : Byte) (s : State) : Host.Outcome State Fault Refusal :=
  .next (s.skipIf (decide (s.reg x = kk)))

/-- SNE Vx, kk (R104). -/
def execSneImm (x : Reg) (kk : Byte) (s : State) : Host.Outcome State Fault Refusal :=
  .next (s.skipIf (decide (s.reg x ≠ kk)))

/-- SE Vx, Vy (R105). -/
def execSeReg (x y : Reg) (s : State) : Host.Outcome State Fault Refusal :=
  .next (s.skipIf (decide (s.reg x = s.reg y)))

/-- SNE Vx, Vy (R106). -/
def execSneReg (x y : Reg) (s : State) : Host.Outcome State Fault Refusal :=
  .next (s.skipIf (decide (s.reg x ≠ s.reg y)))

/-- JP V0, nnn (R107): always V0, the sum is not masked. -/
def execJpV0 (nnn : Word) (s : State) : Host.Outcome State Fault Refusal :=
  .next (s.setPc (nnn + zext16 (s.reg 0)))

end Sys2Proof.Machine
end

