-- ==== Sys2Proof/Machine/IndexMemory.lean ====
section
/-! DEFINITION. Index register and memory instructions (42_index_memory.md). The whole address range is checked before
any effect (R60, R146). -/

namespace Sys2Proof.Machine

/-- LD I, nnn (R140). -/
def execLdI (nnn : Word) (s : State) : Host.Outcome State Fault Refusal :=
  .next (s.setI nnn)

/-- ADD I, Vx (R141): 16 bits, no flag. -/
def execAddIVx (x : Reg) (s : State) : Host.Outcome State Fault Refusal :=
  .next (s.setI (s.I + zext16 (s.reg x)))

/-- LD F, Vx (R142). -/
def execLdFVx (x : Reg) (s : State) : Host.Outcome State Fault Refusal :=
  .next (s.setI (glyphAddress (s.reg x)))

/-- LD B, Vx (R143): `I` is not changed. -/
def execLdBVx (x : Reg) (s : State) : Host.Outcome State Fault Refusal :=
  .next (if beyondMemory (s.index + 2) then s.fatal .addressData (.ldBVx x)
    else s.store s.index (bcdDigits (s.reg x)))

/-- LD [I], Vx (R144). -/
def execLdImemVx (x : Reg) (s : State) : Host.Outcome State Fault Refusal :=
  .next (if beyondMemory (s.index + x.val) then s.fatal .addressData (.ldImemVx x)
    else (s.store s.index (s.regsUpTo x)).setI (BitVec.ofNat 16 (s.index + x.val + 1)))

/-- LD Vx, [I] (R145). -/
def execLdVxImem (x : Reg) (s : State) : Host.Outcome State Fault Refusal :=
  .next (if beyondMemory (s.index + x.val) then s.fatal .addressData (.ldVxImem x)
    else { s with V := loadRegs s.V 0 (Memory.readBytes s.mem s.index (x.val + 1))
                  I := BitVec.ofNat 16 (s.index + x.val + 1) })

end Sys2Proof.Machine
end

