-- ==== Sys2Proof/Machine/KeysTimer.lean ====
section
/-! DEFINITION. Keyboard and delay-timer instructions (44_keys_timer.md). -/

namespace Sys2Proof.Machine

/-- SKP Vx (R160): a key number above 15 is fatal, before the query. -/
def execSkp (x : Reg) (s : State) : Host.Outcome State Fault Refusal :=
  .next (match keyNumber (s.reg x) with
    | some k => s.skipIf (s.isPressed k)
    | none => s.fatal .keyIndex (.skp x))

/-- SKNP Vx (R161): a key number above 15 is fatal, before the query. -/
def execSknp (x : Reg) (s : State) : Host.Outcome State Fault Refusal :=
  .next (match keyNumber (s.reg x) with
    | some k => s.skipIf (!s.isPressed k)
    | none => s.fatal .keyIndex (.sknp x))

/-- LD Vx, DT (R162). -/
def execLdVxDt (x : Reg) (s : State) : Host.Outcome State Fault Refusal :=
  .next (s.setReg x s.dt)

/-- LD Vx, K (R163): with no key down the instruction is fetched again at the next cycle. -/
def execLdVxK (x : Reg) (s : State) : Host.Outcome State Fault Refusal :=
  .next (match s.anyPressed with
    | none => s.rewind
    | some k => s.setReg x (keyByte k))

/-- LD DT, Vx (R164). -/
def execLdDtVx (x : Reg) (s : State) : Host.Outcome State Fault Refusal :=
  .next (s.setDt (s.reg x))

end Sys2Proof.Machine
end

