-- ==== Sys2Proof/Machine/Cycle.lean ====
section
/-! DEFINITION. The four things one step can be: an instruction cycle (30_encoding.md R84), a tick (60_exceptions.md
R193, R201), a stop request (R201), a reset (70_reset_and_hazards.md R220). -/

namespace Sys2Proof.Machine

/-- The fetch: two bytes at `pc`, high byte first; none when `pc + 1 > 0xFFF` (R57, R60, R84). -/
def State.fetch (s : State) : Option Word :=
  if beyondMemory (s.pc.toNat + 1) then none
  else some (wordOfBytes (s.byteAt s.pc.toNat) (s.byteAt (s.pc.toNat + 1)))

/-- AddressFault.Fetch: the record's address is `pc`, which stays, and no opcode was read (R183). -/
def State.fetchFault (s : State) : State := s.raise ⟨.addressFetch, s.pc, none⟩

/-- An unknown opcode after the fetch advance: only `diag.unknown(a, op)` is emitted (R87). -/
def State.unknownOpcode (s : State) (op : Word) : State := s.emit (.unknown (s.pc - 2) op)

/-- Decode and execute, `pc` being already advanced (R84, R87). -/
def executeWord (op : Word) (s : State) : Host.Outcome State Fault Refusal :=
  match decode op with
  | .ok i => exec i s
  | .error _ => .next (s.unknownOpcode op)

/-- One cycle (R84). In Halted and Stopped there is none: the machine stays as it is (R189, R201, U25). Log 10. -/
def cycleTurn (s : State) : Host.Outcome State Fault Refusal :=
  match s.run with
  | .running =>
    match s.fetch with
    | none => .next s.fetchFault
    | some op => executeWord op s.advance
  | .halted _ => .next s
  | .stopped => .next s

/-- The timer's own step: one down while it is not 0 (R193). -/
def State.decrementTimer (s : State) : State := if s.dt ≠ 0 then { s with dt := s.dt - 1 } else s

/-- A tick, which is also a tick boundary: a pending stop request takes effect before the decrement and instead of it
(R193, R201). In Halted and Stopped a tick changes nothing (R189, R201). -/
def State.tick (s : State) : State :=
  match s.run with
  | .running => if s.stopRequested then { s with run := .stopped } else s.decrementTimer
  | .halted _ => s
  | .stopped => s

/-- The host raises the stop request: it waits for the next tick boundary; it can be raised while Running only (R201). Log 11. -/
def State.requestStop (s : State) : State :=
  match s.run with
  | .running => { s with stopRequested := true }
  | .halted _ => s
  | .stopped => s

/-- The host resets the machine and loads a program; an image of more than 3584 bytes has no launch state (R220, R222, R223). -/
def resetTurn (font : Vector Byte 80) (rom : List Byte) (s : State) : Host.Outcome State Fault Refusal :=
  if rom.length ≤ Config.maxRom then .next (s.launch font rom) else .refused .romTooLong

/-- What the step's input makes the machine do (R39, R194). -/
def runTurn (s : State) : Host.Outcome State Fault Refusal :=
  match s.input.turn with
  | .cycle => cycleTurn s
  | .tick => .next s.tick
  | .stop => .next s.requestStop
  | .reset font rom => resetTurn font rom s

/-- The step's input is used up in the next state, if there is one. -/
def consumed : Host.Outcome State Fault Refusal → Host.Outcome State Fault Refusal
  | .next t => .next t.consumeInput
  | .fault f => .fault f
  | .refused r => .refused r

/-- `w` placed where the next fetch reads, and the next step made a cycle of a running machine. A `pc` that no fetch can
read at has no place for a word, and memory is left alone. Log 16. -/
def State.placeWord (s : State) (w : Word) : State :=
  { s with mem := if beyondMemory (s.pc.toNat + 1) then s.mem
                  else Memory.writeBytes s.mem s.pc.toNat [highByte w, lowByte w]
           run := .running
           inputs := { s.input with turn := .cycle } :: s.inputs.tail }

end Sys2Proof.Machine
end

