-- ==== Sys2Proof/Machine/Step.lean ====
section
/-! DEFINITION. One step of the machine: what its input says happens (60_exceptions.md R194), and the input is used up. -/

namespace Sys2Proof.Machine

/-- One atomic step (R194). -/
def step (s : State) : Host.Outcome State Fault Refusal := consumed (runTurn s)

/-- The state with the instruction whose table bits are `w` placed where the next step fetches it. Log 16. -/
def State.withFetchWord (s : State) (nbits w : Nat) : State := s.placeWord (tableWord nbits w)

end Sys2Proof.Machine
end

