-- ==== Sys2Proof/Safety.lean ====
section
/-! DEFINITION. What claims about the machine speak of: frames, halts, invariants, the end of a run, fairness. -/

namespace Sys2Proof.Machine

/-! ## Frames: what an instruction leaves unchanged -/

/-- Every register but those of `ds` holds what it held. -/
def RegsKept (ds : List Reg) (s t : State) : Prop := ∀ r, r ∉ ds → t.reg r = s.reg r

/-- Every byte of memory reads as before. -/
def MemoryKept (s t : State) : Prop := ∀ a, t.byteAt a = s.byteAt a

/-- Every byte of memory outside the `n` bytes at `lo` reads as before. -/
def MemoryKeptOutside (lo n : Nat) (s t : State) : Prop := ∀ a, a < lo ∨ lo + n ≤ a → t.byteAt a = s.byteAt a

/-- Nothing but `pc` changes. -/
def OnlyPc (s t : State) : Prop := t = { s with pc := t.pc } ∧ RegsKept [] s t ∧ MemoryKept s t

/-- Nothing but the registers of `ds` changes; `pc` stays where the fetch left it. -/
def OnlyRegs (ds : List Reg) (s t : State) : Prop := t = { s with V := t.V } ∧ RegsKept ds s t ∧ MemoryKept s t

/-- Nothing but `I` changes. -/
def OnlyIndex (s t : State) : Prop := t = { s with I := t.I } ∧ RegsKept [] s t ∧ MemoryKept s t

/-- Nothing but the `n` bytes of memory at `lo` and, where `movesIndex`, `I` changes. -/
def OnlyMemory (lo n : Nat) (movesIndex : Bool) (s t : State) : Prop :=
  t = { s with mem := t.mem, I := t.I } ∧ (movesIndex = false → t.I = s.I) ∧ RegsKept [] s t ∧
    MemoryKeptOutside lo n s t

/-- The registers an instruction may write: the "writes" column of 10_state.md R24. -/
def destinations : Instr → List Reg
  | .cls => []
  | .ret => []
  | .jp _ => []
  | .call _ => []
  | .seImm _ _ => []
  | .sneImm _ _ => []
  | .seReg _ _ => []
  | .ldImm x _ => [x]
  | .addImm x _ => [x]
  | .ldReg x _ => [x]
  | .or x _ => [x, Reg.vf]
  | .and x _ => [x, Reg.vf]
  | .xor x _ => [x, Reg.vf]
  | .addReg x _ => [x, Reg.vf]
  | .sub x _ => [x, Reg.vf]
  | .shr x _ => [x, Reg.vf]
  | .subn x _ => [x, Reg.vf]
  | .shl x _ => [x, Reg.vf]
  | .sneReg _ _ => []
  | .ldI _ => []
  | .jpV0 _ => []
  | .rnd x _ => [x]
  | .drw _ _ _ => [Reg.vf]
  | .skp _ => []
  | .sknp _ => []
  | .ldVxDt x => [x]
  | .ldVxK x => [x]
  | .ldDtVx _ => []
  | .addIVx _ => []
  | .ldFVx _ => []
  | .ldBVx _ => []
  | .ldImemVx _ => []
  | .ldVxImem x => (List.finRange 16).filter (fun r => decide (r ≤ x))

/-! ## Fatal conditions -/

/-- The execute-stage cause that holds when `i` is executed in `s`: the "when" column of 60_exceptions.md R186. -/
def faultCause (i : Instr) (s : State) : Option Cause :=
  match i with
  | .cls => none
  | .ret => if s.sp.val = 0 then some .stackUnderflow else none
  | .jp _ => none
  | .call _ => if s.sp.val = 16 then some .stackOverflow else none
  | .seImm _ _ => none
  | .sneImm _ _ => none
  | .seReg _ _ => none
  | .ldImm _ _ => none
  | .addImm _ _ => none
  | .ldReg _ _ => none
  | .or _ _ => none
  | .and _ _ => none
  | .xor _ _ => none
  | .addReg _ _ => none
  | .sub _ _ => none
  | .shr _ _ => none
  | .subn _ _ => none
  | .shl _ _ => none
  | .sneReg _ _ => none
  | .ldI _ => none
  | .jpV0 _ => none
  | .rnd _ _ => none
  | .drw _ _ n => if 0 < n ∧ 0xFFF < s.I.toNat + n - 1 then some .addressData else none
  | .skp x => if 15 < (s.reg x).toNat then some .keyIndex else none
  | .sknp x => if 15 < (s.reg x).toNat then some .keyIndex else none
  | .ldVxDt _ => none
  | .ldVxK _ => none
  | .ldDtVx _ => none
  | .addIVx _ => none
  | .ldFVx _ => none
  | .ldBVx _ => if 0xFFF < s.I.toNat + 2 then some .addressData else none
  | .ldImemVx x => if 0xFFF < s.I.toNat + x.val then some .addressData else none
  | .ldVxImem x => if 0xFFF < s.I.toNat + x.val then some .addressData else none

/-- The run has halted with this record, `diag.fatal` was emitted once, and nothing else changed (R188). -/
def HaltsWith (record : FaultRecord) (s t : State) : Prop :=
  t.run = .halted record ∧ t.diag = .fatal record s.snapshot :: s.diag ∧
    t = { s with run := t.run, diag := t.diag }

/-- Two runs of one instruction, both from diagnostics `old`, the second with the call-stack slots `stack`, have emitted the same
diagnostics: the same lists, or one new `diag.fatal` each with the same record, whose copies of the state differ in the slots
only (R188). -/
def DiagnosticsAgree (old : List Diagnostic) (stack : Vector Word 16) (first second : List Diagnostic) : Prop :=
  second = first ∨ ∃ record copy, first = .fatal record copy :: old ∧
    second = .fatal record { copy with stack := stack } :: old

/-! ## Invariants -/


/-- What every step keeps: memory is canonical (R32), `pc` is at most 0x10FE (R28), and every live return address is at most
0x1000 (R100, R102). -/
structure State.Inv (s : State) : Prop where
  memory : Memory.wf s.mem = true
  counter : s.pc.toNat ≤ 0x10FE
  returns : ∀ j : Fin 16, j.val < s.sp.val → s.stack[j.val].toNat ≤ 0x1000

/-- What a halted state shows of its own fault record (R33, R181 to R186): for a fetch fault, `pc` is the record's address and
no fetch is possible there; for any other cause, the record holds the word that lies at its address, that word is an
instruction, and the cause is the one that holds for it in this very state. -/
def State.HaltExplained (s : State) : Prop :=
  ∀ record, s.run = .halted record →
    (record.cause = .addressFetch ∧ record.addr = s.pc ∧ record.opcode = none ∧ 0xFFF ≤ s.pc.toNat) ∨
    (s.pc = record.addr + 2 ∧ record.addr.toNat < 0xFFF ∧
      ∃ i, decode (wordOfBytes (s.byteAt record.addr.toNat) (s.byteAt (record.addr.toNat + 1))) = .ok i ∧
        record.opcode = some (wordOfBytes (s.byteAt record.addr.toNat) (s.byteAt (record.addr.toNat + 1))) ∧
        faultCause i s = some record.cause)

/-! ## The end of a run -/

/-- No cycle and no tick happens any more (R189, R201). -/
def State.Ended (s : State) : Prop := s.run ≠ .running

/-- The optional terminal predicate of 70_reset_and_hazards.md R225: Running, and the word at `pc` is `1nnn` with
`nnn = pc`. It is the spec's own definition (D29), not the document's. -/
def State.Finished (s : State) : Prop :=
  s.run = .running ∧ ∃ op, s.fetch = some op ∧ decode op = .ok (.jp s.pc)

/-- The fairness of 60_exceptions.md R195, an assumption on the environment's inputs and no rule of a step: cycles and
ticks both come infinitely often. -/
def FairInputs (f : Nat → Input) : Prop :=
  (∀ n, ∃ m, n ≤ m ∧ (f m).turn = .cycle) ∧ ∀ n, ∃ m, n ≤ m ∧ (f m).turn = .tick

/-! ## Sprites -/

/-- Sprite bit (row, col) of a draw of `n` rows is 1 and lands on pixel (px, py) (43_display.md R151, R152). -/
def SpriteCovers (s : State) (x y : Reg) (n : Nat) (px : Fin 64) (py : Fin 32) : Prop :=
  ∃ row col, row < n ∧ col < 8 ∧ (s.byteAt (s.I.toNat + row)).getLsbD (7 - col) = true ∧
    px.val = ((s.reg x).toNat % 64 + col) % 64 ∧ py.val = ((s.reg y).toNat % 32 + row) % 32

end Sys2Proof.Machine
end

