-- ==== Sys2Proof/Certificates/Slice0/Obligations.lean ====
section
/-! DEFINITION. The statements for the provers. `exec` runs the execute stage, so in every statement about it `s.pc` is
the address of the instruction plus 2 (30_encoding.md R84). -/

open Sys2Proof Sys2Proof.Machine

/-! ## Encoding -/

/-- A word of each of the sixteen families, the values of bits 15 to 12, written out from the encodings of R86, decodes to its
instruction. 0x5121 and 0xF318 do not decode: the first by the spec's decision D6, the second by its decision D7 (log 8). -/
def Obligations.SampleWordsDecode : Prop :=
  decode 0b0000000011101110 = .ok .ret ∧
  decode 0b0001111111111111 = .ok (.jp 0xFFF) ∧
  decode 0b0010001000010000 = .ok (.call 0x210) ∧
  decode 0b0011001100101010 = .ok (.seImm 3 0x2A) ∧
  decode 0b0100001100101010 = .ok (.sneImm 3 0x2A) ∧
  decode 0b0101000100100000 = .ok (.seReg 1 2) ∧
  decode 0b0110101000111100 = .ok (.ldImm 0xA 0x3C) ∧
  decode 0b0111001000000101 = .ok (.addImm 2 0x05) ∧
  decode 0b1000000100101110 = .ok (.shl 1 2) ∧
  decode 0b1001000100100000 = .ok (.sneReg 1 2) ∧
  decode 0b1010001011110000 = .ok (.ldI 0x2F0) ∧
  decode 0b1011001100000000 = .ok (.jpV0 0x300) ∧
  decode 0b1100001100001111 = .ok (.rnd 3 0x0F) ∧
  decode 0b1101000000010101 = .ok (.drw 0 1 5) ∧
  decode 0b1110010110100001 = .ok (.sknp 5) ∧
  decode 0b1111001001010101 = .ok (.ldImemVx 2) ∧
  decode 0b1111001000001010 = .ok (.ldVxK 2) ∧
  decode 0b0101000100100001 = .error (.unknownOpcode 0x5121) ∧
  decode 0b1111001100011000 = .error (.unknownOpcode 0xF318)

/-- Decoding the word of any well-formed instruction gives that instruction back, operands included (R82, R83, R86). -/
def Obligations.DecodeOfEncode : Prop :=
  ∀ i : Instr, i.wellFormed = true → decode (encode i) = .ok i

/-- A decoded instruction is well-formed and encodes to the word it was read from, so every word has at most one meaning and a
fault record's word is the word fetched (R85). -/
def Obligations.EncodeOfDecode : Prop :=
  ∀ (op : Word) (i : Instr), decode op = .ok i → i.wellFormed = true ∧ encode i = op

/-- The two-level dispatch of R85 agrees with the mask and match columns of R86: a word that a row selects decodes to an
instruction of that row. -/
def Obligations.DecodeFollowsOpcodeRows : Prop :=
  ∀ (op : Word) (row : OpcodeRow), row ∈ opcodeRows → op &&& row.mask = row.pattern →
    ∃ i, decode op = .ok i ∧ i.mnemonic = row.mnemonic

/-- A word is unknown exactly when no row of R86 selects it, and the error names the word (R85, R87; that 5xyN and 9xyN with N
other than 0, and Fx18 and 0nnn, match no row are the decisions D6 and D7, log 8). -/
def Obligations.UnknownExactlyWhenNoRow : Prop :=
  ∀ op : Word, decode op = .error (.unknownOpcode op) ↔
    ∀ row : OpcodeRow, row ∈ opcodeRows → op &&& row.mask ≠ row.pattern

/-- No word is selected by two rows of the opcode map (R85, R86). -/
def Obligations.OpcodeRowsDisjoint : Prop :=
  ∀ (op : Word) (r₁ r₂ : OpcodeRow), r₁ ∈ opcodeRows → r₂ ∈ opcodeRows →
    op &&& r₁.mask = r₁.pattern → op &&& r₂.mask = r₂.pattern → r₁ = r₂

/-- An instruction laid out in memory order, high byte first, is read back from any byte stream it begins, with the rest of
the stream left over; fewer than two bytes are refused by name (R57, R80). -/
def Obligations.BytesDecodeInStream : Prop :=
  (∀ (i : Instr) (rest : List Byte), i.wellFormed = true →
    decodeBytes (encodeBytes i ++ rest) = .ok (i, rest)) ∧
  decodeBytes [] = .error .truncated ∧ ∀ b : Byte, decodeBytes [b] = .error .truncated

/-! ## The cycle -/

/-- When the two bytes at `pc` decode to an instruction, the machine is Running and the step is a cycle, the step is `exec` of
that instruction at the state whose `pc` has been advanced by 2, and then the step's input is used up (R84; the input is the
model's own, log 1). -/
def Obligations.StepRunsDecodedInstruction : Prop :=
  ∀ (s : State) (i : Instr), s.run = .running → s.input.turn = .cycle → s.pc.toNat + 1 ≤ 0xFFF →
    decodeBytes [s.byteAt s.pc.toNat, s.byteAt (s.pc.toNat + 1)] = .ok (i, []) →
    step s = consumed (exec i { s with pc := s.pc + 2 })

/-- The fetched word is 256 times the byte at `pc` plus the byte at `pc + 1`, at every `pc`, even or odd, whose two bytes
exist (R57, R58; that an odd `pc` is no fault is the spec's decision D23). -/
def Obligations.FetchIsBigEndian : Prop :=
  ∀ s : State, s.pc.toNat + 1 ≤ 0xFFF →
    ∃ op, s.fetch = some op ∧ op.toNat = 256 * (s.byteAt s.pc.toNat).toNat + (s.byteAt (s.pc.toNat + 1)).toNat

/-- A cycle whose `pc` is 0xFFF or more halts with AddressFault.Fetch; `pc` stays and the record has no opcode (R183; the
spec's decisions D1 and D17; that this is a next state is the model's choice, log 9). -/
def Obligations.FetchBeyondMemoryHalts : Prop :=
  ∀ s : State, s.run = .running → s.input.turn = .cycle → 0xFFF ≤ s.pc.toNat →
    ∃ t, step s = .next t.consumeInput ∧ HaltsWith ⟨.addressFetch, s.pc, none⟩ s t

/-- An unknown word advances `pc` by 2, emits `diag.unknown` with its address and itself, and changes nothing else (R87; that
the event is recorded in the state is the model's choice, log 13, within the spec's decision D25). -/
def Obligations.UnknownWordOnlyAdvances : Prop :=
  ∀ (s : State) (op : Word), s.run = .running → s.input.turn = .cycle → s.fetch = some op →
    (∀ row : OpcodeRow, row ∈ opcodeRows → op &&& row.mask ≠ row.pattern) →
    step s = .next { s with pc := s.pc + 2, diag := .unknown s.pc op :: s.diag
                            inputs := s.inputs.tail, inputCount := s.inputCount + 1 }

/-- Every cycle turn has a next state, in every run state and whatever memory holds. For a Running machine every word executes
(R85, R87, R89), and that a fatal condition (R188) is a next state is the model's choice, log 9; in Halted and Stopped, where
the spec has no cycle (R84, R189, R201), that the turn is a next state is the model's choice, log 10. -/
def Obligations.EveryCycleHasNextState : Prop :=
  ∀ s : State, s.input.turn = .cycle → ∃ t, step s = .next t

/-! ## Control transfer -/

/-- JP nnn: `pc` becomes nnn and nothing else changes; the next fetch exists unless nnn is 0xFFF or more (R101). -/
def Obligations.JumpGoesToTarget : Prop :=
  ∀ (nnn : Word) (s : State), ∃ t, exec (.jp nnn) s = .next t ∧ t.pc = nnn ∧ OnlyPc s t ∧
    (t.fetch = none ↔ 0xFFF ≤ nnn.toNat)

/-- JP V0, nnn: `pc` becomes nnn plus the unsigned value of V0, not masked; nothing else changes (R107; D3). -/
def Obligations.JumpV0AddsV0 : Prop :=
  ∀ (nnn : Word) (s : State), nnn.toNat < 0x1000 →
    ∃ t, exec (.jpV0 nnn) s = .next t ∧ t.pc.toNat = nnn.toNat + (s.reg 0).toNat ∧ OnlyPc s t

/-- CALL nnn with room on the stack: the advanced `pc` goes to slot `sp`, `sp` grows by 1, `pc` becomes nnn; every other slot,
every register and every byte of memory keeps its value (R102; the slot is the spec's decision D4). -/
def Obligations.CallPushesReturnAddress : Prop :=
  ∀ (nnn : Word) (s : State), s.sp.val < 16 →
    ∃ t, exec (.call nnn) s = .next t ∧ t.pc = nnn ∧ t.sp.val = s.sp.val + 1 ∧
      (∀ j : Fin 16, t.stack[j.val] = if j.val = s.sp.val then s.pc else s.stack[j.val]) ∧
      t = { s with pc := t.pc, sp := t.sp, stack := t.stack } ∧ RegsKept [] s t ∧ MemoryKept s t

/-- RET with a return address held: `pc` becomes the newest slot, `sp` falls by 1; every slot, every register and every byte
of memory keeps its value (R100; the slot is the spec's decision D4). -/
def Obligations.ReturnPopsReturnAddress : Prop :=
  ∀ s : State, ∀ j : Fin 16, s.sp.val = j.val + 1 →
    ∃ t, exec .ret s = .next t ∧ t.pc = s.stack[j.val] ∧ t.sp.val = j.val ∧
      t = { s with pc := t.pc, sp := t.sp } ∧ RegsKept [] s t ∧ MemoryKept s t

/-- CALL and then RET, with nothing between that moves the stack: `pc` is the address after the CALL and the depth is what it
was, for depths 0 to 15 before the CALL (R100, R102). -/
def Obligations.CallThenReturn : Prop :=
  ∀ (nnn : Word) (s : State), s.sp.val < 16 →
    ∃ t, exec (.call nnn) s = .next t ∧ ∀ u : State, u.stack = t.stack → u.sp = t.sp →
      ∃ w, exec .ret u = .next w ∧ w.pc = s.pc ∧ w.sp = s.sp

/-- A CALL on a full stack halts with StackOverflow and a RET on an empty one with StackUnderflow; `pc` stays past the
instruction, the record names its address and word, the stack is intact (R181, R182; D17; that this is a next state is the
model's choice, log 9, and the record's address and word inside `exec` are log 14). -/
def Obligations.StackFaultsHalt : Prop :=
  (∀ (nnn : Word) (s : State), s.sp.val = 16 →
    ∃ t, exec (.call nnn) s = .next t ∧ HaltsWith ⟨.stackOverflow, s.pc - 2, some (encode (.call nnn))⟩ s t) ∧
  (∀ s : State, s.sp.val = 0 →
    ∃ t, exec .ret s = .next t ∧ HaltsWith ⟨.stackUnderflow, s.pc - 2, some 0x00EE⟩ s t)

/-- SE Vx, kk and SNE Vx, kk: two more bytes are skipped when Vx equals, differs from, kk; nothing but `pc` changes. Every
word 3xkk and 4xkk is one of them (R103, R104). -/
def Obligations.SkipOnImmediate : Prop :=
  (∀ op : Word, op &&& 0xF000 = 0x3000 → decode op = .ok (.seImm (fieldX op) (fieldKk op))) ∧
  (∀ op : Word, op &&& 0xF000 = 0x4000 → decode op = .ok (.sneImm (fieldX op) (fieldKk op))) ∧
  ∀ (x : Reg) (kk : Byte) (s : State),
    (∃ t, exec (.seImm x kk) s = .next t ∧ OnlyPc s t ∧
      (s.reg x = kk → t.pc = s.pc + 2) ∧ (s.reg x ≠ kk → t.pc = s.pc)) ∧
    (∃ t, exec (.sneImm x kk) s = .next t ∧ OnlyPc s t ∧
      (s.reg x ≠ kk → t.pc = s.pc + 2) ∧ (s.reg x = kk → t.pc = s.pc))

/-- SE Vx, Vy and SNE Vx, Vy: two more bytes are skipped when the registers are equal, differ; with x = y the first always
skips and the second never (R105, R106). -/
def Obligations.SkipOnRegisters : Prop :=
  ∀ (x y : Reg) (s : State),
    (∃ t, exec (.seReg x y) s = .next t ∧ OnlyPc s t ∧
      (s.reg x = s.reg y → t.pc = s.pc + 2) ∧ (s.reg x ≠ s.reg y → t.pc = s.pc) ∧ (x = y → t.pc = s.pc + 2)) ∧
    (∃ t, exec (.sneReg x y) s = .next t ∧ OnlyPc s t ∧
      (s.reg x ≠ s.reg y → t.pc = s.pc + 2) ∧ (s.reg x = s.reg y → t.pc = s.pc) ∧ (x = y → t.pc = s.pc))

/-! ## Register load, arithmetic, logic, shifts, random -/

/-- LD Vx, kk and LD Vx, Vy: Vx gets the value, every other register (VF included, unless it is x) keeps its own, nothing else
changes. Every word 6xkk and 8xy0 is one of them (R120, R122). -/
def Obligations.LoadsIntoRegister : Prop :=
  (∀ op : Word, op &&& 0xF000 = 0x6000 → decode op = .ok (.ldImm (fieldX op) (fieldKk op))) ∧
  (∀ op : Word, op &&& 0xF00F = 0x8000 → decode op = .ok (.ldReg (fieldX op) (fieldY op))) ∧
  (∀ (x : Reg) (kk : Byte) (s : State),
    ∃ t, exec (.ldImm x kk) s = .next t ∧ t.reg x = kk ∧ OnlyRegs [x] s t) ∧
  (∀ (x y : Reg) (s : State),
    ∃ t, exec (.ldReg x y) s = .next t ∧ t.reg x = s.reg y ∧ OnlyRegs [x] s t)

/-- ADD Vx, kk: the sum modulo 256; VF is not written unless it is x; kk = 0 changes nothing. Every word 7xkk is one (R121).
-/
def Obligations.AddImmediateWraps : Prop :=
  (∀ op : Word, op &&& 0xF000 = 0x7000 → decode op = .ok (.addImm (fieldX op) (fieldKk op))) ∧
  ∀ (x : Reg) (kk : Byte) (s : State),
    ∃ t, exec (.addImm x kk) s = .next t ∧
      (t.reg x).toNat = ((s.reg x).toNat + kk.toNat) % 256 ∧ OnlyRegs [x] s t ∧ (kk = 0 → t = s)

/-- OR, AND, XOR: bit by bit, with both operands read first, and VF ends 0; with x = F the result is lost (R123, R124, R125;
the write order is the spec's decision D5). -/
def Obligations.LogicClearsFlag : Prop :=
  ∀ (x y : Reg) (s : State),
    (∃ t, exec (.or x y) s = .next t ∧ t.reg Reg.vf = 0 ∧ OnlyRegs [x, Reg.vf] s t ∧
      (x ≠ Reg.vf → ∀ k, k < 8 → (t.reg x).getLsbD k = ((s.reg x).getLsbD k || (s.reg y).getLsbD k))) ∧
    (∃ t, exec (.and x y) s = .next t ∧ t.reg Reg.vf = 0 ∧ OnlyRegs [x, Reg.vf] s t ∧
      (x ≠ Reg.vf → ∀ k, k < 8 → (t.reg x).getLsbD k = ((s.reg x).getLsbD k && (s.reg y).getLsbD k))) ∧
    (∃ t, exec (.xor x y) s = .next t ∧ t.reg Reg.vf = 0 ∧ OnlyRegs [x, Reg.vf] s t ∧
      (x ≠ Reg.vf → ∀ k, k < 8 → (t.reg x).getLsbD k = ((s.reg x).getLsbD k ^^ (s.reg y).getLsbD k)))

/-- ADD Vx, Vy: the sum modulo 256 of the values both registers held before, and VF ends as the carry, whatever x and y are
(R126; the write order is the spec's decision D5). -/
def Obligations.AddSetsCarry : Prop :=
  ∀ (x y : Reg) (s : State),
    ∃ t, exec (.addReg x y) s = .next t ∧ OnlyRegs [x, Reg.vf] s t ∧
      (x ≠ Reg.vf → (t.reg x).toNat = ((s.reg x).toNat + (s.reg y).toNat) % 256) ∧
      (255 < (s.reg x).toNat + (s.reg y).toNat → t.reg Reg.vf = 1) ∧
      ((s.reg x).toNat + (s.reg y).toNat ≤ 255 → t.reg Reg.vf = 0)

/-- SUB is Vx - Vy and SUBN is Vy - Vx, modulo 256, of the values held before; VF ends 1 exactly when there is no borrow
(R127, R129, R133; the write order is the spec's decision D5). -/
def Obligations.SubtractSetsNotBorrow : Prop :=
  ∀ (x y : Reg) (s : State),
    (∃ t, exec (.sub x y) s = .next t ∧ OnlyRegs [x, Reg.vf] s t ∧
      ((s.reg y).toNat ≤ (s.reg x).toNat → t.reg Reg.vf = 1 ∧
        (x ≠ Reg.vf → (t.reg x).toNat = (s.reg x).toNat - (s.reg y).toNat)) ∧
      ((s.reg x).toNat < (s.reg y).toNat → t.reg Reg.vf = 0 ∧
        (x ≠ Reg.vf → (t.reg x).toNat = (s.reg x).toNat + 256 - (s.reg y).toNat))) ∧
    (∃ t, exec (.subn x y) s = .next t ∧ OnlyRegs [x, Reg.vf] s t ∧
      ((s.reg x).toNat ≤ (s.reg y).toNat → t.reg Reg.vf = 1 ∧
        (x ≠ Reg.vf → (t.reg x).toNat = (s.reg y).toNat - (s.reg x).toNat)) ∧
      ((s.reg y).toNat < (s.reg x).toNat → t.reg Reg.vf = 0 ∧
        (x ≠ Reg.vf → (t.reg x).toNat = (s.reg y).toNat + 256 - (s.reg x).toNat)))

/-- SHR and SHL shift the value Vy held before by one position into Vx, and VF ends as the bit that left; the old Vx has no
influence (R128, R130; the write order is the spec's decision D5). -/
def Obligations.ShiftsReadVy : Prop :=
  ∀ (x y : Reg) (s : State),
    (∃ t, exec (.shr x y) s = .next t ∧ OnlyRegs [x, Reg.vf] s t ∧
      (t.reg Reg.vf).toNat = (s.reg y).toNat % 2 ∧ (x ≠ Reg.vf → (t.reg x).toNat = (s.reg y).toNat / 2)) ∧
    (∃ t, exec (.shl x y) s = .next t ∧ OnlyRegs [x, Reg.vf] s t ∧
      (t.reg Reg.vf).toNat = (s.reg y).toNat / 128 ∧ (x ≠ Reg.vf → (t.reg x).toNat = (s.reg y).toNat * 2 % 256))

/-- RND Vx, kk: for every byte the environment may answer, Vx is that byte AND kk; the bits outside kk are 0, no flag. Every
word Cxkk is one (R131). -/
def Obligations.RandomIsMasked : Prop :=
  (∀ op : Word, op &&& 0xF000 = 0xC000 → decode op = .ok (.rnd (fieldX op) (fieldKk op))) ∧
  ∀ (x : Reg) (kk : Byte) (s : State),
    ∃ t, exec (.rnd x kk) s = .next t ∧ t.reg x = s.randomByte &&& kk ∧ OnlyRegs [x] s t ∧
      ∀ k, kk.getLsbD k = false → (t.reg x).getLsbD k = false

/-! ## Index register and memory -/

/-- LD I, nnn: `I` becomes nnn, whose bits 15 to 12 are 0; LD F, Vx: `I` becomes 0x050 + 5 * (Vx AND 0xF); no flag, no memory
access, whatever memory holds. Every word Annn and Fx29 is one of them (R140, R142; that the font base is 0x050 is the spec's
decision D12, log 8). -/
def Obligations.LoadsIntoIndex : Prop :=
  (∀ op : Word, op &&& 0xF000 = 0xA000 → decode op = .ok (.ldI (fieldNnn op))) ∧
  (∀ op : Word, op &&& 0xF0FF = 0xF029 → decode op = .ok (.ldFVx (fieldX op))) ∧
  (∀ (nnn : Word) (s : State),
    ∃ t, exec (.ldI nnn) s = .next t ∧ t.I = nnn ∧ OnlyIndex s t ∧
      ((Instr.ldI nnn).wellFormed = true → t.I.toNat < 0x1000)) ∧
  (∀ (x : Reg) (s : State),
    ∃ t, exec (.ldFVx x) s = .next t ∧ t.I.toNat = 0x050 + 5 * ((s.reg x).toNat % 16) ∧ OnlyIndex s t)

/-- ADD I, Vx: the sum modulo 65536, never masked to 12 bits, and no flag: no V register changes (R141; D2). -/
def Obligations.AddToIndex : Prop :=
  ∀ (x : Reg) (s : State),
    ∃ t, exec (.addIVx x) s = .next t ∧ t.I.toNat = (s.I.toNat + (s.reg x).toNat) % 65536 ∧ OnlyIndex s t

/-- LD B, Vx, with the three bytes in memory: they hold decimal digits h, t, o with 100h + 10t + o = Vx; `I`, every register
and every other byte keep their values (R143; the range check is D1). -/
def Obligations.DecimalDigitsStored : Prop :=
  ∀ (x : Reg) (s : State), s.I.toNat + 2 ≤ 0xFFF →
    ∃ t, exec (.ldBVx x) s = .next t ∧ OnlyMemory s.I.toNat 3 false s t ∧
      100 * (t.byteAt s.I.toNat).toNat + 10 * (t.byteAt (s.I.toNat + 1)).toNat +
        (t.byteAt (s.I.toNat + 2)).toNat = (s.reg x).toNat ∧
      (t.byteAt s.I.toNat).toNat ≤ 2 ∧ (t.byteAt (s.I.toNat + 1)).toNat ≤ 9 ∧
      (t.byteAt (s.I.toNat + 2)).toNat ≤ 9

/-- LD [I], Vx, with the x + 1 bytes in memory: byte r holds Vr for r = 0 to x, `I` grows by x + 1, every register and every
other byte keep their values (R144; the range check is D1). -/
def Obligations.RegistersStored : Prop :=
  ∀ (x : Reg) (s : State), s.I.toNat + x.val ≤ 0xFFF →
    ∃ t, exec (.ldImemVx x) s = .next t ∧ OnlyMemory s.I.toNat (x.val + 1) true s t ∧
      t.I.toNat = s.I.toNat + x.val + 1 ∧ ∀ r : Reg, r ≤ x → t.byteAt (s.I.toNat + r.val) = s.reg r

/-- LD Vx, [I], with the x + 1 bytes in memory: Vr gets byte r for r = 0 to x, `I` grows by x + 1, the registers above x and
all of memory keep their values (R145; the range check is D1). -/
def Obligations.RegistersLoaded : Prop :=
  ∀ (x : Reg) (s : State), s.I.toNat + x.val ≤ 0xFFF →
    ∃ t, exec (.ldVxImem x) s = .next t ∧ t.I.toNat = s.I.toNat + x.val + 1 ∧
      (∀ r : Reg, r ≤ x → t.reg r = s.byteAt (s.I.toNat + r.val)) ∧ (∀ r : Reg, x < r → t.reg r = s.reg r) ∧
      t = { s with V := t.V, I := t.I } ∧ MemoryKept s t

/-- Registers stored and loaded again from the same address, with memory untouched between, are what they were (R144, R145;
the range check is D1). -/
def Obligations.StoreThenLoadRestores : Prop :=
  ∀ (x : Reg) (s u : State), s.I.toNat + x.val ≤ 0xFFF →
    ∃ t, exec (.ldImemVx x) s = .next t ∧ (u.mem = t.mem → u.I = s.I →
      ∃ w, exec (.ldVxImem x) u = .next w ∧ ∀ r : Reg, r ≤ x → w.reg r = s.reg r)

/-- A word stored over the next instruction is the word fetched next: after LD [I], Vx, a fetch at an address inside the bytes
stored reads the registers stored there (R64, R234; the range check is D1). -/
def Obligations.StoredWordIsFetched : Prop :=
  ∀ (x r q : Reg) (s : State), s.I.toNat + x.val ≤ 0xFFF → q.val = r.val + 1 → q ≤ x →
    s.pc.toNat = s.I.toNat + r.val →
    ∃ t, exec (.ldImemVx x) s = .next t ∧ t.fetch = some (wordOfBytes (s.reg r) (s.reg q))

/-! ## Display -/

/-- CLS: every pixel is off and nothing else changes, VF included; on a clear screen nothing changes at all. The word 0x00E0
is the only one (R150). -/
def Obligations.ClearTurnsAllPixelsOff : Prop :=
  (∀ op : Word, decode op = .ok .cls ↔ op = 0x00E0) ∧
  ∀ s : State, ∃ t, exec .cls s = .next t ∧ (∀ px py, t.fb.pixel px py = false) ∧
    t = { s with fb := t.fb } ∧ RegsKept [] s t ∧ MemoryKept s t ∧ ((∀ px py, s.fb.pixel px py = false) → t = s)

/-- DRW with its sprite in memory: a pixel flips exactly when a 1 bit of the sprite lands on it, every pixel wrapping by
itself; VF ends 1 exactly when such a pixel was on; the position is read before VF is written; `I` and every other register
stay (R151 to R154; which bit is leftmost is D10, the range check D1). -/
def Obligations.DrawXorsSprite : Prop :=
  ∀ (x y : Reg) (n : Nat) (s : State), n < 16 → (0 < n → s.I.toNat + n - 1 ≤ 0xFFF) →
    ∃ t, exec (.drw x y n) s = .next t ∧
      (∀ px py, SpriteCovers s x y n px py → t.fb.pixel px py = !s.fb.pixel px py) ∧
      (∀ px py, ¬ SpriteCovers s x y n px py → t.fb.pixel px py = s.fb.pixel px py) ∧
      ((∃ px py, SpriteCovers s x y n px py ∧ s.fb.pixel px py = true) → t.reg Reg.vf = 1) ∧
      ((¬ ∃ px py, SpriteCovers s x y n px py ∧ s.fb.pixel px py = true) → t.reg Reg.vf = 0) ∧
      t = { s with V := t.V, fb := t.fb } ∧ RegsKept [Reg.vf] s t ∧ MemoryKept s t

/-- The same sprite drawn twice at the same place leaves the screen as it was; on a clear screen the first draw reports no
collision, and the second reports one exactly when the first turned a pixel on (R151, R153; the range check is D1). -/
def Obligations.DrawTwiceErases : Prop :=
  ∀ (x y : Reg) (n : Nat) (s : State), x ≠ Reg.vf → y ≠ Reg.vf → n < 16 → (0 < n → s.I.toNat + n - 1 ≤ 0xFFF) →
    ∃ t u, exec (.drw x y n) s = .next t ∧ exec (.drw x y n) t = .next u ∧ u.fb = s.fb ∧
      ((∀ px py, s.fb.pixel px py = false) → t.reg Reg.vf = 0 ∧
        (u.reg Reg.vf = 1 ↔ ∃ px py, t.fb.pixel px py = true))

/-! ## Keys and timer -/

/-- SKP and SKNP with Vx at most 15: two more bytes are skipped when the environment answers that key Vx is down, is not down;
nothing but `pc` changes (R160, R161; D8; the answer is free, D24 and log 3). -/
def Obligations.SkipOnKeyState : Prop :=
  ∀ (x : Reg) (k : Key) (s : State), (s.reg x).toNat = k.val →
    (∃ t, exec (.skp x) s = .next t ∧ OnlyPc s t ∧
      (s.isPressed k = true → t.pc = s.pc + 2) ∧ (s.isPressed k = false → t.pc = s.pc)) ∧
    (∃ t, exec (.sknp x) s = .next t ∧ OnlyPc s t ∧
      (s.isPressed k = false → t.pc = s.pc + 2) ∧ (s.isPressed k = true → t.pc = s.pc))

/-- LD Vx, K: with no key answered, `pc` goes back to the instruction and nothing else changes; with key k answered, Vx is k
and nothing else changes (R163; the answer is free, D9 and log 4). -/
def Obligations.KeyWaitOrLoad : Prop :=
  ∀ (x : Reg) (s : State),
    (s.anyPressed = none → ∃ t, exec (.ldVxK x) s = .next t ∧ t.pc = s.pc - 2 ∧ OnlyPc s t) ∧
    (∀ k, s.anyPressed = some k → ∃ t, exec (.ldVxK x) s = .next t ∧ (t.reg x).toNat = k.val ∧ OnlyRegs [x] s t)

/-- A whole cycle of LD Vx, K with no key down leaves every piece of the machine's state as it was (R163 (a), R36; D30). -/
def Obligations.WaitingCycleChangesNothing : Prop :=
  ∀ (s : State) (op : Word) (x : Reg), s.run = .running → s.input.turn = .cycle → s.fetch = some op →
    decode op = .ok (.ldVxK x) → s.anyPressed = none → step s = .next s.consumeInput

/-- LD Vx, DT copies the timer into Vx and leaves the timer; LD DT, Vx copies Vx into the timer; no flag (R162, R164). -/
def Obligations.TimerReadAndWritten : Prop :=
  ∀ (x : Reg) (s : State),
    (∃ t, exec (.ldVxDt x) s = .next t ∧ t.reg x = s.dt ∧ OnlyRegs [x] s t) ∧
    (∃ t, exec (.ldDtVx x) s = .next t ∧ t.dt = s.reg x ∧ t = { s with dt := t.dt } ∧ RegsKept [] s t ∧ MemoryKept s t)

/-! ## Fatal conditions, ticks, stop, reset -/

/-- The execute stage halts exactly in the cases of the table of R186, with that cause, the instruction's address and word,
one `diag.fatal`, and no other effect; in every other case the run state and the diagnostics stay (R186, R188, R190; D1, D8,
D16, D17, D28; that halting is a next state is the model's choice, log 9, and the record inside `exec` is log 14). -/
def Obligations.FatalConditionsAreExact : Prop :=
  ∀ (i : Instr) (s : State),
    (∀ cause, faultCause i s = some cause →
      ∃ t, exec i s = .next t ∧ HaltsWith ⟨cause, s.pc - 2, some (encode i)⟩ s t) ∧
    (faultCause i s = none → ∃ t, exec i s = .next t ∧ t.run = s.run ∧ t.diag = s.diag)

/-- In Halted and in Stopped no cycle, tick or stop turn changes anything but the input used up. The spec has no cycle and no
tick there at all (R84, R189, R201; D17, D21): that such a turn is a next state is the model's choice, log 10, and that a stop
request raised there changes nothing is the model's choice, log 11. -/
def Obligations.EndedRunStaysAsItIs : Prop :=
  ∀ s : State, s.Ended → (∀ font rom, s.input.turn ≠ .reset font rom) → step s = .next s.consumeInput

/-- A tick of a running machine with no stop request pending takes a non-zero timer down by 1, leaves a zero timer at 0, and
changes nothing else (R193; the pending bit is log 11). -/
def Obligations.TickDecrementsTimer : Prop :=
  ∀ s : State, s.run = .running → s.stopRequested = false → s.input.turn = .tick →
    ∃ t, step s = .next t.consumeInput ∧ t.dt.toNat = s.dt.toNat - 1 ∧ t = { s with dt := t.dt } ∧
      RegsKept [] s t ∧ MemoryKept s t

/-- n ticks take the timer from d to d - n, to 0 when n is d or more, and never below; nothing else changes (R193, R30; the
pending bit is log 11). -/
def Obligations.TicksCountDownToZero : Prop :=
  ∀ (n : Nat) (s : State), s.run = .running → s.stopRequested = false →
    (State.tick^[n] s).dt.toNat = s.dt.toNat - n ∧ State.tick^[n] s = { s with dt := (State.tick^[n] s).dt }

/-- A stop request waits: raising it changes nothing else, and the next tick boundary ends the run without a decrement (R201;
D21, and log 11 for the pending bit). -/
def Obligations.StopTakesEffectAtTick : Prop :=
  ∀ s : State, s.run = .running →
    (s.input.turn = .stop → step s = .next ({ s with stopRequested := true }).consumeInput) ∧
    (s.input.turn = .tick → s.stopRequested = true → step s = .next ({ s with run := .stopped }).consumeInput)

/-- A program cannot see a stop request: a cycle does the same with and without one pending (R201; the pending bit is log 11).
-/
def Obligations.StopRequestUnseenByCycles : Prop :=
  ∀ (s t : State) (b : Bool), s.input.turn = .cycle → step s = .next t →
    step { s with stopRequested := b } = .next { t with stopRequested := b }

/-- A reset with a program of at most 3584 bytes, in any run state, re-creates the machine: every piece of state at the value
of R41, the font's bytes, the program's bytes, 0 in every other byte, and memory canonical (R41, R220, R222; D11, D12, D17,
D18, D19, D22). That the pending stop request is forgotten is no row of R41 but log 11, DEDUCED; that a reset is a turn is log
12. -/
def Obligations.ResetLaunchesProgram : Prop :=
  ∀ (s : State) (font : Vector Byte 80) (rom : List Byte), s.input.turn = .reset font rom → rom.length ≤ 3584 →
    ∃ t, step s = .next t ∧ (∀ r, t.reg r = 0) ∧ t.I = 0 ∧ t.pc = 0x200 ∧ t.sp.val = 0 ∧
      (∀ j : Fin 16, t.stack[j.val] = 0) ∧ t.dt = 0 ∧ t.run = .running ∧ (∀ px py, t.fb.pixel px py = false) ∧
      t.stopRequested = false ∧ Memory.wf t.mem = true ∧
      (∀ j : Fin 80, t.byteAt (0x050 + j.val) = font[j.val]) ∧
      (∀ j : Fin rom.length, t.byteAt (0x200 + j.val) = rom[j.val]) ∧
      (∀ a, a ≤ 0xFFF → (a < 0x050 ∨ 0x0A0 ≤ a) → (a < 0x200 ∨ 0x200 + rom.length ≤ a) → t.byteAt a = 0)

/-- A program image longer than 3584 bytes has no launch state: the reset is refused by name (R223; D26). -/
def Obligations.LongProgramRefused : Prop :=
  ∀ (s : State) (font : Vector Byte 80) (rom : List Byte), s.input.turn = .reset font rom → 3584 < rom.length →
    step s = .refused .romTooLong

/-- The state after reset holds what a launch with the default font and an empty program leaves, field by field and byte by
byte (R41, R223; that `I` and the timer are 0 is the spec's decision D18; that State.reset is the launch of an empty program
is DEDUCED, log 16; the font's bytes are PRESUMED, log 6, and no value of theirs is stated). -/
def Obligations.ResetIsEmptyLaunch : Prop :=
  let t := State.reset.launch Config.fontData []
  (∀ a, t.byteAt a = State.reset.byteAt a) ∧ t = { State.reset with mem := t.mem } ∧
    State.reset.pc = 0x200 ∧ State.reset.sp.val = 0 ∧ (∀ r, State.reset.reg r = 0) ∧ State.reset.I = 0 ∧
    State.reset.dt = 0 ∧ State.reset.run = .running

/-! ## Whole-machine rules -/

/-- Every step keeps the machine's invariant: memory stays canonical, `pc` is at most 0x10FE, every live return address is at
most 0x1000 (R28, R32, R102; the two bounds on `pc` rest on the spec's decisions D1 and D3, the slots on D4). -/
def Obligations.StepKeepsInvariant : Prop :=
  ∀ s t : State, s.Inv → step s = .next t → t.Inv

/-- The state after reset meets the invariant (R41). -/
def Obligations.ResetMeetsInvariant : Prop := State.reset.Inv

/-- Every step keeps a halted state explained by its record: the record's cause holds in that very state for the instruction
whose word lies at the record's address (R33, R181 to R186, R188; D1, D8, D16, D17; logs 9, 10 and 14). -/
def Obligations.StepKeepsHaltExplained : Prop :=
  ∀ s t : State, s.HaltExplained → step s = .next t → t.HaltExplained

/-- The state after reset meets it (R41). -/
def Obligations.ResetMeetsHaltExplained : Prop := State.reset.HaltExplained

/-- An instruction writes no register outside the "writes" column of R24. -/
def Obligations.OnlyDestinationsWritten : Prop :=
  ∀ (i : Instr) (s t : State) (r : Reg), exec i s = .next t → r ∉ destinations i → t.reg r = s.reg r

/-- Each piece of state is written only by the instructions that the spec names for it (R25, R29, R30, R32, R40, R197); the
pending stop request (log 11) and the model's own input fields (log 1) by none. -/
def Obligations.OnlyNamedInstructionsWrite : Prop :=
  ∀ (i : Instr) (s t : State), exec i s = .next t →
    (i.mnemonic ∉ ["LD_I_NNN", "ADD_I_VX", "LD_F_VX", "LD_IMEM_VX", "LD_VX_IMEM"] → t.I = s.I) ∧
    (i.mnemonic ∉ ["CALL", "RET"] → t.sp = s.sp ∧ t.stack = s.stack) ∧
    (i.mnemonic ≠ "LD_DT_VX" → t.dt = s.dt) ∧
    (i.mnemonic ∉ ["LD_B_VX", "LD_IMEM_VX"] → t.mem = s.mem) ∧
    (i.mnemonic ∉ ["CLS", "DRW"] → t.fb = s.fb) ∧
    t.stopRequested = s.stopRequested ∧ t.inputs = s.inputs ∧ t.inputCount = s.inputCount

/-- Every instruction outside control transfer leaves `pc` where the fetch put it, but for LD Vx, K (R27; C9). -/
def Obligations.OtherInstructionsKeepPc : Prop :=
  ∀ (i : Instr) (s t : State), exec i s = .next t →
    i.mnemonic ∉ ["RET", "JP", "CALL", "SE_VX_KK", "SNE_VX_KK", "SE_VX_VY", "SNE_VX_VY", "JP_V0", "SKP", "SKNP",
      "LD_VX_K"] → t.pc = s.pc

/-- The environment's input reaches a program through four instructions only: every other one does the same under any input
(R36, R198, R199, R200; the form of the input is the model's own, logs 1 and 3 to 5). -/
def Obligations.InputReachesFourInstructions : Prop :=
  ∀ (i : Instr) (s t : State) (inputs : List Input) (count : Nat),
    i.mnemonic ∉ ["RND", "SKP", "SKNP", "LD_VX_K"] → exec i s = .next t →
    exec i { s with inputs := inputs, inputCount := count } =
      .next { t with inputs := inputs, inputCount := count }

/-- The slots above the depth are dead: an instruction does the same whatever they hold. The diagnostics agree as well, but
for the call-stack slots in the copy of the state that a newly emitted `diag.fatal` carries (R29, U23; D4; the diagnostics in
the state are log 13). -/
def Obligations.DeadStackSlotsUnseen : Prop :=
  ∀ (i : Instr) (s t : State) (stack : Vector Word 16), exec i s = .next t →
    (∀ j : Fin 16, j.val < s.sp.val → stack[j.val] = s.stack[j.val]) →
    ∃ u, exec i { s with stack := stack } = .next u ∧ u = { t with stack := u.stack, diag := u.diag } ∧
      (∀ j : Fin 16, j.val < t.sp.val → u.stack[j.val] = t.stack[j.val]) ∧ DiagnosticsAgree s.diag stack t.diag u.diag

/-- A finished program, one whose next word jumps to itself, is left as it is by every cycle, and by a tick with no stop
request pending but for the timer, so it stays finished (R225; the predicate is the spec's own, D29; the pending bit is log
11). -/
def Obligations.FinishedProgramStays : Prop :=
  ∀ s : State, s.Finished →
    (s.input.turn = .cycle → step s = .next s.consumeInput) ∧
    (s.input.turn = .tick → s.stopRequested = false →
      ∃ t, step s = .next t ∧ t.Finished ∧ t = { s.consumeInput with dt := t.dt })
end

