-- ==== Sys2Proof/Laws/Decode.lean ====
section
/-! SUPPORT. The fields of encoded words: what the decoder reads back from each format of 30_encoding.md R82, and that the
fields of a word make the word. -/

namespace Sys2Proof

@[simp] theorem nibbleReg_regNibble (r : Reg) : nibbleReg (regNibble r) = r := by
  apply Fin.ext
  simp [nibbleReg, regNibble]

@[simp] theorem regNibble_nibbleReg (b : BitVec 4) : regNibble (nibbleReg b) = b := by
  apply BitVec.eq_of_toNat_eq
  simp [nibbleReg, regNibble]

/-- A field that lies in the low part of two parts put together. -/
theorem extract_append_low {m n : Nat} (x : BitVec m) (y : BitVec n) (start len : Nat) (h : start + len ≤ n) :
    (x ++ y).extractLsb' start len = y.extractLsb' start len := by
  apply BitVec.eq_of_getLsbD_eq
  intro k hk
  simp only [BitVec.getLsbD_extractLsb', BitVec.getLsbD_append]
  rw [if_pos (by omega)]

/-- A field that lies in the high part of two parts put together. -/
theorem extract_append_high {m n : Nat} (x : BitVec m) (y : BitVec n) (start len : Nat) (h : n ≤ start) :
    (x ++ y).extractLsb' start len = x.extractLsb' (start - n) len := by
  apply BitVec.eq_of_getLsbD_eq
  intro k hk
  simp only [BitVec.getLsbD_extractLsb', BitVec.getLsbD_append]
  rw [if_neg (by omega)]
  congr 2
  omega

theorem extract_all {n : Nat} (x : BitVec n) : x.extractLsb' 0 n = x := by
  apply BitVec.eq_of_getLsbD_eq
  intro k hk
  simp [hk]

/-! ## The fields of an encoded word -/

@[simp] theorem fieldFam_encodeXkk (fam : BitVec 4) (x : Reg) (kk : Byte) : fieldFam (encodeXkk fam x kk) = fam := by
  rw [fieldFam, encodeXkk, extract_append_high _ _ _ _ (by omega), extract_append_high _ _ _ _ (by omega)]
  exact extract_all fam

@[simp] theorem fieldX_encodeXkk (fam : BitVec 4) (x : Reg) (kk : Byte) : fieldX (encodeXkk fam x kk) = x := by
  rw [fieldX, encodeXkk, extract_append_high _ _ _ _ (by omega), extract_append_low _ _ _ _ (by omega),
    Nat.sub_self, extract_all, nibbleReg_regNibble]

@[simp] theorem fieldKk_encodeXkk (fam : BitVec 4) (x : Reg) (kk : Byte) : fieldKk (encodeXkk fam x kk) = kk := by
  rw [fieldKk, encodeXkk, extract_append_low _ _ _ _ (by omega), extract_all]

@[simp] theorem fieldFam_encodeXyn (fam : BitVec 4) (x y : Reg) (n : BitVec 4) :
    fieldFam (encodeXyn fam x y n) = fam := by
  rw [fieldFam, encodeXyn, extract_append_high _ _ _ _ (by omega), extract_append_high _ _ _ _ (by omega),
    extract_append_high _ _ _ _ (by omega)]
  exact extract_all fam

@[simp] theorem fieldX_encodeXyn (fam : BitVec 4) (x y : Reg) (n : BitVec 4) : fieldX (encodeXyn fam x y n) = x := by
  rw [fieldX, encodeXyn, extract_append_high _ _ _ _ (by omega), extract_append_high _ _ _ _ (by omega),
    extract_append_low _ _ _ _ (by omega), extract_all, nibbleReg_regNibble]

@[simp] theorem fieldY_encodeXyn (fam : BitVec 4) (x y : Reg) (n : BitVec 4) : fieldY (encodeXyn fam x y n) = y := by
  rw [fieldY, encodeXyn, extract_append_high _ _ _ _ (by omega), extract_append_low _ _ _ _ (by omega),
    Nat.sub_self, extract_all, nibbleReg_regNibble]

@[simp] theorem fieldN_encodeXyn (fam : BitVec 4) (x y : Reg) (n : BitVec 4) : fieldN (encodeXyn fam x y n) = n := by
  rw [fieldN, encodeXyn, extract_append_low _ _ _ _ (by omega), extract_all]

@[simp] theorem fieldFam_encodeNnn (fam : BitVec 4) (nnn : Word) : fieldFam (encodeNnn fam nnn) = fam := by
  rw [fieldFam, encodeNnn, extract_append_high _ _ _ _ (by omega)]
  exact extract_all fam

theorem fieldNnn_encodeNnn (fam : BitVec 4) (nnn : Word) (h : addressOk nnn = true) :
    fieldNnn (encodeNnn fam nnn) = nnn := by
  rw [fieldNnn, encodeNnn, extract_append_low _ _ _ _ (by omega), extract_all]
  apply BitVec.eq_of_toNat_eq
  have hn : nnn.toNat < 4096 := by simpa [addressOk] using h
  simp only [BitVec.toNat_setWidth, BitVec.extractLsb'_toNat, Nat.shiftRight_zero]
  omega

/-! ## A word is made of its fields -/

theorem encodeXkk_fields (op : Word) : encodeXkk (fieldFam op) (fieldX op) (fieldKk op) = op := by
  apply BitVec.eq_of_getLsbD_eq
  intro k hk
  rw [encodeXkk, fieldX, regNibble_nibbleReg]
  simp only [fieldFam, fieldKk, BitVec.getLsbD_append, BitVec.getLsbD_extractLsb']
  split
  · next h => simp [h]
  · next h =>
    split
    · next h2 =>
      have : 8 + (k - 8) = k := by omega
      simp [h2, this]
    · next h2 =>
      have h3 : k - 8 - 4 < 4 := by omega
      have : 12 + (k - 8 - 4) = k := by omega
      simp [h3, this]

theorem encodeXyn_fields (op : Word) : encodeXyn (fieldFam op) (fieldX op) (fieldY op) (fieldN op) = op := by
  apply BitVec.eq_of_getLsbD_eq
  intro k hk
  rw [encodeXyn, fieldX, fieldY, regNibble_nibbleReg, regNibble_nibbleReg]
  simp only [fieldFam, fieldN, BitVec.getLsbD_append, BitVec.getLsbD_extractLsb']
  split
  · next h => simp [h]
  · next h =>
    split
    · next h2 =>
      have : 4 + (k - 4) = k := by omega
      simp [h2, this]
    · next h2 =>
      split
      · next h3 =>
        have : 8 + (k - 4 - 4) = k := by omega
        simp [h3, this]
      · next h3 =>
        have h4 : k - 4 - 4 - 4 < 4 := by omega
        have : 12 + (k - 4 - 4 - 4) = k := by omega
        simp [h4, this]

theorem encodeNnn_fields (op : Word) : encodeNnn (fieldFam op) (fieldNnn op) = op := by
  apply BitVec.eq_of_getLsbD_eq
  intro k hk
  simp only [encodeNnn, fieldFam, fieldNnn, BitVec.getLsbD_append, BitVec.getLsbD_extractLsb', BitVec.getLsbD_setWidth]
  split
  · next h =>
    have h2 : k < 16 := by omega
    simp [h, h2]
  · next h =>
    have h2 : k - 12 < 4 := by omega
    have : 12 + (k - 12) = k := by omega
    simp [h2, this]

/-- A 12-bit field is a 12-bit address. -/
theorem addressOk_fieldNnn (op : Word) : addressOk (fieldNnn op) = true := by
  have h : (op.extractLsb' 0 12).toNat < 2 ^ 12 := (op.extractLsb' 0 12).isLt
  simp only [addressOk, fieldNnn, BitVec.toNat_setWidth, decide_eq_true_eq]
  omega

/-- A 4-bit field is a count 0 to 15. -/
theorem countOk_fieldN (op : Word) : countOk (fieldN op).toNat = true := by
  have h : (fieldN op).toNat < 2 ^ 4 := (fieldN op).isLt
  simp only [countOk, decide_eq_true_eq]
  omega

/-! ## The masks of the opcode map -/

/-- Mask F000 keeps the family. -/
theorem mask_F000 (op : Word) : op &&& 0xF000 = encodeNnn (fieldFam op) 0 := by
  apply BitVec.eq_of_getLsbD_eq
  intro k hk
  simp only [encodeNnn, fieldFam, BitVec.getLsbD_and, BitVec.getLsbD_append, BitVec.getLsbD_extractLsb']
  interval_cases k <;> simp

/-- Mask F00F keeps the family and the low digit. -/
theorem mask_F00F (op : Word) : op &&& 0xF00F = encodeXyn (fieldFam op) 0 0 (fieldN op) := by
  apply BitVec.eq_of_getLsbD_eq
  intro k hk
  simp only [encodeXyn, fieldFam, fieldN, regNibble, BitVec.getLsbD_and, BitVec.getLsbD_append,
    BitVec.getLsbD_extractLsb']
  interval_cases k <;> simp

/-- Mask F0FF keeps the family and the low byte. -/
theorem mask_F0FF (op : Word) : op &&& 0xF0FF = encodeXkk (fieldFam op) 0 (fieldKk op) := by
  apply BitVec.eq_of_getLsbD_eq
  intro k hk
  simp only [encodeXkk, fieldFam, fieldKk, regNibble, BitVec.getLsbD_and, BitVec.getLsbD_append,
    BitVec.getLsbD_extractLsb']
  interval_cases k <;> simp

/-! ## Byte order -/

theorem wordOfBytes_bytes (w : Word) : wordOfBytes (highByte w) (lowByte w) = w := by
  apply BitVec.eq_of_getLsbD_eq
  intro k hk
  simp only [wordOfBytes, highByte, lowByte, BitVec.getLsbD_append, BitVec.getLsbD_extractLsb']
  split
  · next h => simp [h]
  · next h =>
    have h2 : k - 8 < 8 := by omega
    have : 8 + (k - 8) = k := by omega
    simp [h2, this]

theorem highByte_wordOfBytes (h l : Byte) : highByte (wordOfBytes h l) = h := by
  rw [highByte, wordOfBytes, extract_append_high _ _ _ _ (by omega)]
  exact extract_all h

theorem lowByte_wordOfBytes (h l : Byte) : lowByte (wordOfBytes h l) = l := by
  rw [lowByte, wordOfBytes, extract_append_low _ _ _ _ (by omega), extract_all]

end Sys2Proof
end

