-- ==== Sys2Proof/Laws/Memory.lean ====
section
/-! SUPPORT. What memory operations do: a read after a write, bytes outside a store, and the canonical form. -/

namespace Sys2Proof.Machine

theorem Memory.read_erase (m : Memory) (a b : Nat) :
    Memory.read (Memory.erase m a) b = if b = a then Memory.unlisted a else Memory.read m b := by
  induction m with
  | nil => by_cases h : b = a <;> simp [Memory.erase, Memory.read, h]
  | cons c rest ih =>
    obtain ⟨k, v⟩ := c
    by_cases hk : k = a
    · by_cases hb : b = a
      · subst hb
        simpa [Memory.erase, hk] using ih
      · have : ¬ a = b := fun h => hb h.symm
        simp [Memory.erase, Memory.read, hk, ih, hb, this]
    · by_cases hkb : k = b
      · have hb : ¬ b = a := fun h => hk (hkb.trans h)
        simp [Memory.erase, Memory.read, hkb, hb]
      · simp [Memory.erase, Memory.read, hk, hkb, ih]

/-- An insertion in front of an unlisted address. -/
theorem Memory.read_insert (m : Memory) (a b : Nat) (v : Byte) (h : ∀ c ∈ m, c.1 ≠ a) :
    Memory.read (Memory.insert m a v) b = if b = a then v else Memory.read m b := by
  induction m with
  | nil =>
    by_cases hb : b = a
    · simp [Memory.insert, Memory.read, hb]
    · have : ¬ a = b := fun h => hb h.symm
      simp [Memory.insert, Memory.read, hb, this]
  | cons c rest ih =>
    obtain ⟨k, w⟩ := c
    have hk : k ≠ a := h (k, w) (by simp)
    have hrest : ∀ c ∈ rest, c.1 ≠ a := fun c hc => h c (by simp [hc])
    by_cases hlt : a < k
    · by_cases hb : b = a
      · simp [Memory.insert, Memory.read, hlt, hb]
      · have : ¬ a = b := fun h => hb h.symm
        simp [Memory.insert, Memory.read, hlt, hb, this]
    · by_cases hkb : k = b
      · have hb : ¬ b = a := fun h => hk (hkb.trans h)
        rw [Memory.insert, if_neg hlt]
        simp [Memory.read, hkb, hb]
      · simp [Memory.insert, Memory.read, hlt, hkb, ih hrest]

theorem Memory.erase_unlists (m : Memory) (a : Nat) : ∀ c ∈ Memory.erase m a, c.1 ≠ a := by
  induction m with
  | nil => simp [Memory.erase]
  | cons c rest ih =>
    obtain ⟨k, v⟩ := c
    by_cases hk : k = a
    · simpa [Memory.erase, hk] using ih
    · simpa [Memory.erase, hk] using ih

/-- A read after a write: the value written at that address, everything else as before. -/
theorem Memory.read_write (m : Memory) (a b : Nat) (v : Byte) :
    Memory.read (Memory.write m a v) b = if b = a then v else Memory.read m b := by
  by_cases hv : v = Memory.unlisted a
  · simp [Memory.write, hv, Memory.read_erase]
  · rw [Memory.write, if_neg hv, Memory.read_insert _ _ _ _ (Memory.erase_unlists m a), Memory.read_erase]
    by_cases hb : b = a <;> simp [hb]

/-- Bytes stored one after the other: the byte at an address inside is the one stored there, outside nothing changes. -/
theorem Memory.read_writeBytes (m : Memory) (a b : Nat) (bs : List Byte) :
    Memory.read (Memory.writeBytes m a bs) b =
      if h : a ≤ b ∧ b < a + bs.length then bs[b - a]'(by omega) else Memory.read m b := by
  induction bs generalizing m a with
  | nil =>
    have : ¬ (a ≤ b ∧ b < a + ([] : List Byte).length) := by simp
    simp only [Memory.writeBytes, dif_neg this]
  | cons v rest ih =>
    rw [Memory.writeBytes, ih, Memory.read_write]
    by_cases hab : b = a
    · subst hab
      have h1 : ¬ (b + 1 ≤ b ∧ b < b + 1 + rest.length) := by omega
      have h2 : b ≤ b ∧ b < b + (v :: rest).length := by simp
      rw [dif_neg h1, dif_pos h2]
      simp
    · by_cases hin : a + 1 ≤ b ∧ b < a + 1 + rest.length
      · have h2 : a ≤ b ∧ b < a + (v :: rest).length := by
          constructor
          · omega
          · simp only [List.length_cons]; omega
        rw [dif_pos hin, dif_pos h2]
        have hidx : b - a = (b - (a + 1)) + 1 := by omega
        simp [hidx]
      · have h2 : ¬ (a ≤ b ∧ b < a + (v :: rest).length) := by
          simp only [List.length_cons]; omega
        rw [dif_neg hin, dif_neg h2, if_neg hab]

theorem Memory.readBytes_length (m : Memory) (a n : Nat) : (Memory.readBytes m a n).length = n := by
  induction n generalizing a with
  | zero => rfl
  | succ n ih => simp [Memory.readBytes, ih]

theorem Memory.readBytes_getElem (m : Memory) (a n k : Nat) (h : k < (Memory.readBytes m a n).length) :
    (Memory.readBytes m a n)[k] = Memory.read m (a + k) := by
  induction n generalizing a k with
  | zero => simp [Memory.readBytes] at h
  | succ n ih =>
    cases k with
    | zero => simp [Memory.readBytes]
    | succ k =>
      have hk : k < (Memory.readBytes m (a + 1) n).length := by
        simpa [Memory.readBytes] using h
      simp only [Memory.readBytes, List.getElem_cons_succ]
      rw [ih (a + 1) k hk]
      congr 1
      omega

/-! ## The canonical form -/

theorem Memory.wfFrom_mono {low low' : Nat} (h : low' ≤ low) :
    ∀ {m : Memory}, Memory.wfFrom low m = true → Memory.wfFrom low' m = true
  | [], _ => rfl
  | (k, b) :: rest, hm => by
    simp only [Memory.wfFrom, Bool.and_eq_true, decide_eq_true_eq] at hm ⊢
    exact ⟨⟨⟨by omega, hm.1.1.2⟩, hm.1.2⟩, hm.2⟩

theorem Memory.wfFrom_erase (a : Nat) :
    ∀ {low : Nat} {m : Memory}, Memory.wfFrom low m = true → Memory.wfFrom low (Memory.erase m a) = true
  | _, [], _ => rfl
  | low, (k, b) :: rest, hm => by
    simp only [Memory.wfFrom, Bool.and_eq_true, decide_eq_true_eq] at hm
    have ih := Memory.wfFrom_erase a hm.2
    by_cases hk : k = a
    · simpa [Memory.erase, hk] using Memory.wfFrom_mono (low' := low) (by omega) ih
    · simp only [Memory.erase, if_neg hk, Memory.wfFrom, Bool.and_eq_true, decide_eq_true_eq]
      exact ⟨hm.1, ih⟩

theorem Memory.wfFrom_insert {a : Nat} {v : Byte} (ha : a ≤ Config.lastAddress) (hv : v ≠ Memory.unlisted a) :
    ∀ {low : Nat} {m : Memory}, low ≤ a → (∀ c ∈ m, c.1 ≠ a) → Memory.wfFrom low m = true →
      Memory.wfFrom low (Memory.insert m a v) = true
  | low, [], hl, _, _ => by
    simp [Memory.insert, Memory.wfFrom, hl, ha, hv]
  | low, (k, b) :: rest, hl, hne, hm => by
    simp only [Memory.wfFrom, Bool.and_eq_true, decide_eq_true_eq] at hm
    have hk : k ≠ a := hne (k, b) (by simp)
    by_cases hlt : a < k
    · simp only [Memory.insert, if_pos hlt, Memory.wfFrom, Bool.and_eq_true, decide_eq_true_eq]
      exact ⟨⟨⟨hl, ha⟩, hv⟩, ⟨⟨by omega, hm.1.1.2⟩, hm.1.2⟩, hm.2⟩
    · simp only [Memory.insert, if_neg hlt, Memory.wfFrom, Bool.and_eq_true, decide_eq_true_eq]
      exact ⟨hm.1, Memory.wfFrom_insert ha hv (by omega) (fun c hc => hne c (by simp [hc])) hm.2⟩

/-- A write at an address that exists keeps the canonical form. -/
theorem Memory.wf_write {m : Memory} {a : Nat} {v : Byte} (ha : a ≤ Config.lastAddress) (hm : Memory.wf m = true) :
    Memory.wf (Memory.write m a v) = true := by
  by_cases hv : v = Memory.unlisted a
  · simpa [Memory.write, hv, Memory.wf] using Memory.wfFrom_erase a hm
  · simpa [Memory.write, hv, Memory.wf] using
      Memory.wfFrom_insert ha hv (Nat.zero_le a) (Memory.erase_unlists m a) (Memory.wfFrom_erase a hm)

/-- Bytes stored at addresses that exist keep the canonical form. -/
theorem Memory.wf_writeBytes {m : Memory} {a : Nat} {bs : List Byte} (ha : a + bs.length ≤ Config.memSize)
    (hm : Memory.wf m = true) : Memory.wf (Memory.writeBytes m a bs) = true := by
  induction bs generalizing m a with
  | nil => exact hm
  | cons v rest ih =>
    simp only [List.length_cons, Config.memSize] at ha
    exact ih (by simp only [Config.memSize]; omega) (Memory.wf_write (by simp only [Config.lastAddress]; omega) hm)

theorem Memory.wf_reset : Memory.wf State.reset.mem = true := rfl

/-- The launch image is canonical for every program that fits. -/
theorem Memory.wf_launch (font : Vector Byte 80) (rom : List Byte) (h : rom.length ≤ Config.maxRom) :
    Memory.wf (Memory.launch font rom) = true := by
  refine Memory.wf_writeBytes ?_ (Memory.wf_writeBytes ?_ rfl)
  · simp only [Config.maxRom, Config.loadBase, Config.memSize] at *; omega
  · simp [Config.fontBase, Config.memSize]

/-- Two canonical memories that read alike are the same list. -/
theorem Memory.read_below {low a : Nat} (h : a < low) :
    ∀ {m : Memory}, Memory.wfFrom low m = true → Memory.read m a = Memory.unlisted a
  | [], _ => rfl
  | (k, b) :: rest, hm => by
    simp only [Memory.wfFrom, Bool.and_eq_true, decide_eq_true_eq] at hm
    have hk : ¬ k = a := by omega
    rw [Memory.read, if_neg hk]
    exact Memory.read_below (low := k + 1) (by omega) hm.2

theorem Memory.ext_of_wfFrom :
    ∀ {low : Nat} {m n : Memory}, Memory.wfFrom low m = true → Memory.wfFrom low n = true →
      (∀ a, Memory.read m a = Memory.read n a) → m = n
  | _, [], [], _, _, _ => rfl
  | _, [], (k, b) :: rest, _, hn, h => by
    simp only [Memory.wfFrom, Bool.and_eq_true, decide_eq_true_eq] at hn
    have := h k
    simp only [Memory.read, if_true] at this
    exact absurd this.symm hn.1.2
  | _, (k, b) :: rest, [], hm, _, h => by
    simp only [Memory.wfFrom, Bool.and_eq_true, decide_eq_true_eq] at hm
    have := h k
    simp only [Memory.read, if_true] at this
    exact absurd this hm.1.2
  | low, (k, b) :: rest, (k', b') :: rest', hm, hn, h => by
    simp only [Memory.wfFrom, Bool.and_eq_true, decide_eq_true_eq] at hm hn
    have hk : k = k' := by
      rcases Nat.lt_trichotomy k k' with hlt | heq | hgt
      · have h1 := h k
        have hne : ¬ k' = k := by omega
        rw [Memory.read, if_pos rfl, Memory.read, if_neg hne,
          Memory.read_below (low := k' + 1) (by omega) hn.2] at h1
        exact absurd h1 hm.1.2
      · exact heq
      · have h1 := h k'
        have hne : ¬ k = k' := by omega
        rw [Memory.read, if_neg hne, Memory.read, if_pos rfl,
          Memory.read_below (low := k + 1) (by omega) hm.2] at h1
        exact absurd h1.symm hn.1.2
    subst hk
    have hb : b = b' := by simpa [Memory.read] using h k
    subst hb
    congr 1
    refine Memory.ext_of_wfFrom hm.2 hn.2 fun a => ?_
    by_cases hak : k = a
    · subst hak
      rw [Memory.read_below (Nat.lt_succ_self k) hm.2, Memory.read_below (Nat.lt_succ_self k) hn.2]
    · simpa [Memory.read, hak] using h a

/-- Equal memories are equal data: canonical memories that read alike at every address are equal. -/
theorem Memory.ext_of_wf {m n : Memory} (hm : Memory.wf m = true) (hn : Memory.wf n = true)
    (h : ∀ a, Memory.read m a = Memory.read n a) : m = n :=
  Memory.ext_of_wfFrom hm hn h

end Sys2Proof.Machine
end

