-- ==== Sys2Proof/Laws/State.lean ====
section
/-! SUPPORT. One lemma per field per named update of State, all true by rfl, so that no proof unfolds a record update. -/

namespace Sys2Proof.Machine

/-! ## `State.setReg` -/

@[simp] theorem State.setReg_V (s : State) (r : Reg) (b : Byte) :
    (s.setReg r b).V = s.V.set r.val b := rfl
@[simp] theorem State.setReg_I (s : State) (r : Reg) (b : Byte) :
    (s.setReg r b).I = s.I := rfl
@[simp] theorem State.setReg_pc (s : State) (r : Reg) (b : Byte) :
    (s.setReg r b).pc = s.pc := rfl
@[simp] theorem State.setReg_stack (s : State) (r : Reg) (b : Byte) :
    (s.setReg r b).stack = s.stack := rfl
@[simp] theorem State.setReg_sp (s : State) (r : Reg) (b : Byte) :
    (s.setReg r b).sp = s.sp := rfl
@[simp] theorem State.setReg_dt (s : State) (r : Reg) (b : Byte) :
    (s.setReg r b).dt = s.dt := rfl
@[simp] theorem State.setReg_mem (s : State) (r : Reg) (b : Byte) :
    (s.setReg r b).mem = s.mem := rfl
@[simp] theorem State.setReg_run (s : State) (r : Reg) (b : Byte) :
    (s.setReg r b).run = s.run := rfl
@[simp] theorem State.setReg_fb (s : State) (r : Reg) (b : Byte) :
    (s.setReg r b).fb = s.fb := rfl
@[simp] theorem State.setReg_stopRequested (s : State) (r : Reg) (b : Byte) :
    (s.setReg r b).stopRequested = s.stopRequested := rfl
@[simp] theorem State.setReg_diag (s : State) (r : Reg) (b : Byte) :
    (s.setReg r b).diag = s.diag := rfl
@[simp] theorem State.setReg_inputs (s : State) (r : Reg) (b : Byte) :
    (s.setReg r b).inputs = s.inputs := rfl
@[simp] theorem State.setReg_inputCount (s : State) (r : Reg) (b : Byte) :
    (s.setReg r b).inputCount = s.inputCount := rfl

/-! ## `State.setI` -/

@[simp] theorem State.setI_V (s : State) (w : Word) :
    (s.setI w).V = s.V := rfl
@[simp] theorem State.setI_I (s : State) (w : Word) :
    (s.setI w).I = w := rfl
@[simp] theorem State.setI_pc (s : State) (w : Word) :
    (s.setI w).pc = s.pc := rfl
@[simp] theorem State.setI_stack (s : State) (w : Word) :
    (s.setI w).stack = s.stack := rfl
@[simp] theorem State.setI_sp (s : State) (w : Word) :
    (s.setI w).sp = s.sp := rfl
@[simp] theorem State.setI_dt (s : State) (w : Word) :
    (s.setI w).dt = s.dt := rfl
@[simp] theorem State.setI_mem (s : State) (w : Word) :
    (s.setI w).mem = s.mem := rfl
@[simp] theorem State.setI_run (s : State) (w : Word) :
    (s.setI w).run = s.run := rfl
@[simp] theorem State.setI_fb (s : State) (w : Word) :
    (s.setI w).fb = s.fb := rfl
@[simp] theorem State.setI_stopRequested (s : State) (w : Word) :
    (s.setI w).stopRequested = s.stopRequested := rfl
@[simp] theorem State.setI_diag (s : State) (w : Word) :
    (s.setI w).diag = s.diag := rfl
@[simp] theorem State.setI_inputs (s : State) (w : Word) :
    (s.setI w).inputs = s.inputs := rfl
@[simp] theorem State.setI_inputCount (s : State) (w : Word) :
    (s.setI w).inputCount = s.inputCount := rfl

/-! ## `State.setPc` -/

@[simp] theorem State.setPc_V (s : State) (w : Word) :
    (s.setPc w).V = s.V := rfl
@[simp] theorem State.setPc_I (s : State) (w : Word) :
    (s.setPc w).I = s.I := rfl
@[simp] theorem State.setPc_pc (s : State) (w : Word) :
    (s.setPc w).pc = w := rfl
@[simp] theorem State.setPc_stack (s : State) (w : Word) :
    (s.setPc w).stack = s.stack := rfl
@[simp] theorem State.setPc_sp (s : State) (w : Word) :
    (s.setPc w).sp = s.sp := rfl
@[simp] theorem State.setPc_dt (s : State) (w : Word) :
    (s.setPc w).dt = s.dt := rfl
@[simp] theorem State.setPc_mem (s : State) (w : Word) :
    (s.setPc w).mem = s.mem := rfl
@[simp] theorem State.setPc_run (s : State) (w : Word) :
    (s.setPc w).run = s.run := rfl
@[simp] theorem State.setPc_fb (s : State) (w : Word) :
    (s.setPc w).fb = s.fb := rfl
@[simp] theorem State.setPc_stopRequested (s : State) (w : Word) :
    (s.setPc w).stopRequested = s.stopRequested := rfl
@[simp] theorem State.setPc_diag (s : State) (w : Word) :
    (s.setPc w).diag = s.diag := rfl
@[simp] theorem State.setPc_inputs (s : State) (w : Word) :
    (s.setPc w).inputs = s.inputs := rfl
@[simp] theorem State.setPc_inputCount (s : State) (w : Word) :
    (s.setPc w).inputCount = s.inputCount := rfl

/-! ## `State.setDt` -/

@[simp] theorem State.setDt_V (s : State) (b : Byte) :
    (s.setDt b).V = s.V := rfl
@[simp] theorem State.setDt_I (s : State) (b : Byte) :
    (s.setDt b).I = s.I := rfl
@[simp] theorem State.setDt_pc (s : State) (b : Byte) :
    (s.setDt b).pc = s.pc := rfl
@[simp] theorem State.setDt_stack (s : State) (b : Byte) :
    (s.setDt b).stack = s.stack := rfl
@[simp] theorem State.setDt_sp (s : State) (b : Byte) :
    (s.setDt b).sp = s.sp := rfl
@[simp] theorem State.setDt_dt (s : State) (b : Byte) :
    (s.setDt b).dt = b := rfl
@[simp] theorem State.setDt_mem (s : State) (b : Byte) :
    (s.setDt b).mem = s.mem := rfl
@[simp] theorem State.setDt_run (s : State) (b : Byte) :
    (s.setDt b).run = s.run := rfl
@[simp] theorem State.setDt_fb (s : State) (b : Byte) :
    (s.setDt b).fb = s.fb := rfl
@[simp] theorem State.setDt_stopRequested (s : State) (b : Byte) :
    (s.setDt b).stopRequested = s.stopRequested := rfl
@[simp] theorem State.setDt_diag (s : State) (b : Byte) :
    (s.setDt b).diag = s.diag := rfl
@[simp] theorem State.setDt_inputs (s : State) (b : Byte) :
    (s.setDt b).inputs = s.inputs := rfl
@[simp] theorem State.setDt_inputCount (s : State) (b : Byte) :
    (s.setDt b).inputCount = s.inputCount := rfl

/-! ## `State.setFb` -/

@[simp] theorem State.setFb_V (s : State) (f : Screen) :
    (s.setFb f).V = s.V := rfl
@[simp] theorem State.setFb_I (s : State) (f : Screen) :
    (s.setFb f).I = s.I := rfl
@[simp] theorem State.setFb_pc (s : State) (f : Screen) :
    (s.setFb f).pc = s.pc := rfl
@[simp] theorem State.setFb_stack (s : State) (f : Screen) :
    (s.setFb f).stack = s.stack := rfl
@[simp] theorem State.setFb_sp (s : State) (f : Screen) :
    (s.setFb f).sp = s.sp := rfl
@[simp] theorem State.setFb_dt (s : State) (f : Screen) :
    (s.setFb f).dt = s.dt := rfl
@[simp] theorem State.setFb_mem (s : State) (f : Screen) :
    (s.setFb f).mem = s.mem := rfl
@[simp] theorem State.setFb_run (s : State) (f : Screen) :
    (s.setFb f).run = s.run := rfl
@[simp] theorem State.setFb_fb (s : State) (f : Screen) :
    (s.setFb f).fb = f := rfl
@[simp] theorem State.setFb_stopRequested (s : State) (f : Screen) :
    (s.setFb f).stopRequested = s.stopRequested := rfl
@[simp] theorem State.setFb_diag (s : State) (f : Screen) :
    (s.setFb f).diag = s.diag := rfl
@[simp] theorem State.setFb_inputs (s : State) (f : Screen) :
    (s.setFb f).inputs = s.inputs := rfl
@[simp] theorem State.setFb_inputCount (s : State) (f : Screen) :
    (s.setFb f).inputCount = s.inputCount := rfl

/-! ## `State.store` -/

@[simp] theorem State.store_V (s : State) (a : Nat) (bs : List Byte) :
    (s.store a bs).V = s.V := rfl
@[simp] theorem State.store_I (s : State) (a : Nat) (bs : List Byte) :
    (s.store a bs).I = s.I := rfl
@[simp] theorem State.store_pc (s : State) (a : Nat) (bs : List Byte) :
    (s.store a bs).pc = s.pc := rfl
@[simp] theorem State.store_stack (s : State) (a : Nat) (bs : List Byte) :
    (s.store a bs).stack = s.stack := rfl
@[simp] theorem State.store_sp (s : State) (a : Nat) (bs : List Byte) :
    (s.store a bs).sp = s.sp := rfl
@[simp] theorem State.store_dt (s : State) (a : Nat) (bs : List Byte) :
    (s.store a bs).dt = s.dt := rfl
@[simp] theorem State.store_mem (s : State) (a : Nat) (bs : List Byte) :
    (s.store a bs).mem = Memory.writeBytes s.mem a bs := rfl
@[simp] theorem State.store_run (s : State) (a : Nat) (bs : List Byte) :
    (s.store a bs).run = s.run := rfl
@[simp] theorem State.store_fb (s : State) (a : Nat) (bs : List Byte) :
    (s.store a bs).fb = s.fb := rfl
@[simp] theorem State.store_stopRequested (s : State) (a : Nat) (bs : List Byte) :
    (s.store a bs).stopRequested = s.stopRequested := rfl
@[simp] theorem State.store_diag (s : State) (a : Nat) (bs : List Byte) :
    (s.store a bs).diag = s.diag := rfl
@[simp] theorem State.store_inputs (s : State) (a : Nat) (bs : List Byte) :
    (s.store a bs).inputs = s.inputs := rfl
@[simp] theorem State.store_inputCount (s : State) (a : Nat) (bs : List Byte) :
    (s.store a bs).inputCount = s.inputCount := rfl

/-! ## `State.advance` -/

@[simp] theorem State.advance_V (s : State) :
    (s.advance).V = s.V := rfl
@[simp] theorem State.advance_I (s : State) :
    (s.advance).I = s.I := rfl
@[simp] theorem State.advance_pc (s : State) :
    (s.advance).pc = s.pc + 2 := rfl
@[simp] theorem State.advance_stack (s : State) :
    (s.advance).stack = s.stack := rfl
@[simp] theorem State.advance_sp (s : State) :
    (s.advance).sp = s.sp := rfl
@[simp] theorem State.advance_dt (s : State) :
    (s.advance).dt = s.dt := rfl
@[simp] theorem State.advance_mem (s : State) :
    (s.advance).mem = s.mem := rfl
@[simp] theorem State.advance_run (s : State) :
    (s.advance).run = s.run := rfl
@[simp] theorem State.advance_fb (s : State) :
    (s.advance).fb = s.fb := rfl
@[simp] theorem State.advance_stopRequested (s : State) :
    (s.advance).stopRequested = s.stopRequested := rfl
@[simp] theorem State.advance_diag (s : State) :
    (s.advance).diag = s.diag := rfl
@[simp] theorem State.advance_inputs (s : State) :
    (s.advance).inputs = s.inputs := rfl
@[simp] theorem State.advance_inputCount (s : State) :
    (s.advance).inputCount = s.inputCount := rfl

/-! ## `State.rewind` -/

@[simp] theorem State.rewind_V (s : State) :
    (s.rewind).V = s.V := rfl
@[simp] theorem State.rewind_I (s : State) :
    (s.rewind).I = s.I := rfl
@[simp] theorem State.rewind_pc (s : State) :
    (s.rewind).pc = s.pc - 2 := rfl
@[simp] theorem State.rewind_stack (s : State) :
    (s.rewind).stack = s.stack := rfl
@[simp] theorem State.rewind_sp (s : State) :
    (s.rewind).sp = s.sp := rfl
@[simp] theorem State.rewind_dt (s : State) :
    (s.rewind).dt = s.dt := rfl
@[simp] theorem State.rewind_mem (s : State) :
    (s.rewind).mem = s.mem := rfl
@[simp] theorem State.rewind_run (s : State) :
    (s.rewind).run = s.run := rfl
@[simp] theorem State.rewind_fb (s : State) :
    (s.rewind).fb = s.fb := rfl
@[simp] theorem State.rewind_stopRequested (s : State) :
    (s.rewind).stopRequested = s.stopRequested := rfl
@[simp] theorem State.rewind_diag (s : State) :
    (s.rewind).diag = s.diag := rfl
@[simp] theorem State.rewind_inputs (s : State) :
    (s.rewind).inputs = s.inputs := rfl
@[simp] theorem State.rewind_inputCount (s : State) :
    (s.rewind).inputCount = s.inputCount := rfl

/-! ## `State.push` -/

@[simp] theorem State.push_V (s : State) (w : Word) :
    (s.push w).V = s.V := rfl
@[simp] theorem State.push_I (s : State) (w : Word) :
    (s.push w).I = s.I := rfl
@[simp] theorem State.push_pc (s : State) (w : Word) :
    (s.push w).pc = s.pc := rfl
@[simp] theorem State.push_stack (s : State) (w : Word) :
    (s.push w).stack = s.stack.setIfInBounds s.sp.val w := rfl
@[simp] theorem State.push_sp (s : State) (w : Word) :
    (s.push w).sp = ⟨min (s.sp.val + 1) 16, by omega⟩ := rfl
@[simp] theorem State.push_dt (s : State) (w : Word) :
    (s.push w).dt = s.dt := rfl
@[simp] theorem State.push_mem (s : State) (w : Word) :
    (s.push w).mem = s.mem := rfl
@[simp] theorem State.push_run (s : State) (w : Word) :
    (s.push w).run = s.run := rfl
@[simp] theorem State.push_fb (s : State) (w : Word) :
    (s.push w).fb = s.fb := rfl
@[simp] theorem State.push_stopRequested (s : State) (w : Word) :
    (s.push w).stopRequested = s.stopRequested := rfl
@[simp] theorem State.push_diag (s : State) (w : Word) :
    (s.push w).diag = s.diag := rfl
@[simp] theorem State.push_inputs (s : State) (w : Word) :
    (s.push w).inputs = s.inputs := rfl
@[simp] theorem State.push_inputCount (s : State) (w : Word) :
    (s.push w).inputCount = s.inputCount := rfl

/-! ## `State.pop` -/

@[simp] theorem State.pop_V (s : State) :
    (s.pop).V = s.V := rfl
@[simp] theorem State.pop_I (s : State) :
    (s.pop).I = s.I := rfl
@[simp] theorem State.pop_pc (s : State) :
    (s.pop).pc = s.top := rfl
@[simp] theorem State.pop_stack (s : State) :
    (s.pop).stack = s.stack := rfl
@[simp] theorem State.pop_sp (s : State) :
    (s.pop).sp = ⟨s.sp.val - 1, by have := s.sp.isLt; omega⟩ := rfl
@[simp] theorem State.pop_dt (s : State) :
    (s.pop).dt = s.dt := rfl
@[simp] theorem State.pop_mem (s : State) :
    (s.pop).mem = s.mem := rfl
@[simp] theorem State.pop_run (s : State) :
    (s.pop).run = s.run := rfl
@[simp] theorem State.pop_fb (s : State) :
    (s.pop).fb = s.fb := rfl
@[simp] theorem State.pop_stopRequested (s : State) :
    (s.pop).stopRequested = s.stopRequested := rfl
@[simp] theorem State.pop_diag (s : State) :
    (s.pop).diag = s.diag := rfl
@[simp] theorem State.pop_inputs (s : State) :
    (s.pop).inputs = s.inputs := rfl
@[simp] theorem State.pop_inputCount (s : State) :
    (s.pop).inputCount = s.inputCount := rfl

/-! ## `State.consumeInput` -/

@[simp] theorem State.consumeInput_V (s : State) :
    (s.consumeInput).V = s.V := rfl
@[simp] theorem State.consumeInput_I (s : State) :
    (s.consumeInput).I = s.I := rfl
@[simp] theorem State.consumeInput_pc (s : State) :
    (s.consumeInput).pc = s.pc := rfl
@[simp] theorem State.consumeInput_stack (s : State) :
    (s.consumeInput).stack = s.stack := rfl
@[simp] theorem State.consumeInput_sp (s : State) :
    (s.consumeInput).sp = s.sp := rfl
@[simp] theorem State.consumeInput_dt (s : State) :
    (s.consumeInput).dt = s.dt := rfl
@[simp] theorem State.consumeInput_mem (s : State) :
    (s.consumeInput).mem = s.mem := rfl
@[simp] theorem State.consumeInput_run (s : State) :
    (s.consumeInput).run = s.run := rfl
@[simp] theorem State.consumeInput_fb (s : State) :
    (s.consumeInput).fb = s.fb := rfl
@[simp] theorem State.consumeInput_stopRequested (s : State) :
    (s.consumeInput).stopRequested = s.stopRequested := rfl
@[simp] theorem State.consumeInput_diag (s : State) :
    (s.consumeInput).diag = s.diag := rfl
@[simp] theorem State.consumeInput_inputs (s : State) :
    (s.consumeInput).inputs = s.inputs.tail := rfl
@[simp] theorem State.consumeInput_inputCount (s : State) :
    (s.consumeInput).inputCount = s.inputCount + 1 := rfl

/-! ## `State.emit` -/

@[simp] theorem State.emit_V (s : State) (d : Diagnostic) :
    (s.emit d).V = s.V := rfl
@[simp] theorem State.emit_I (s : State) (d : Diagnostic) :
    (s.emit d).I = s.I := rfl
@[simp] theorem State.emit_pc (s : State) (d : Diagnostic) :
    (s.emit d).pc = s.pc := rfl
@[simp] theorem State.emit_stack (s : State) (d : Diagnostic) :
    (s.emit d).stack = s.stack := rfl
@[simp] theorem State.emit_sp (s : State) (d : Diagnostic) :
    (s.emit d).sp = s.sp := rfl
@[simp] theorem State.emit_dt (s : State) (d : Diagnostic) :
    (s.emit d).dt = s.dt := rfl
@[simp] theorem State.emit_mem (s : State) (d : Diagnostic) :
    (s.emit d).mem = s.mem := rfl
@[simp] theorem State.emit_run (s : State) (d : Diagnostic) :
    (s.emit d).run = s.run := rfl
@[simp] theorem State.emit_fb (s : State) (d : Diagnostic) :
    (s.emit d).fb = s.fb := rfl
@[simp] theorem State.emit_stopRequested (s : State) (d : Diagnostic) :
    (s.emit d).stopRequested = s.stopRequested := rfl
@[simp] theorem State.emit_diag (s : State) (d : Diagnostic) :
    (s.emit d).diag = d :: s.diag := rfl
@[simp] theorem State.emit_inputs (s : State) (d : Diagnostic) :
    (s.emit d).inputs = s.inputs := rfl
@[simp] theorem State.emit_inputCount (s : State) (d : Diagnostic) :
    (s.emit d).inputCount = s.inputCount := rfl

/-! ## `State.raise` -/

@[simp] theorem State.raise_V (s : State) (r : FaultRecord) :
    (s.raise r).V = s.V := rfl
@[simp] theorem State.raise_I (s : State) (r : FaultRecord) :
    (s.raise r).I = s.I := rfl
@[simp] theorem State.raise_pc (s : State) (r : FaultRecord) :
    (s.raise r).pc = s.pc := rfl
@[simp] theorem State.raise_stack (s : State) (r : FaultRecord) :
    (s.raise r).stack = s.stack := rfl
@[simp] theorem State.raise_sp (s : State) (r : FaultRecord) :
    (s.raise r).sp = s.sp := rfl
@[simp] theorem State.raise_dt (s : State) (r : FaultRecord) :
    (s.raise r).dt = s.dt := rfl
@[simp] theorem State.raise_mem (s : State) (r : FaultRecord) :
    (s.raise r).mem = s.mem := rfl
@[simp] theorem State.raise_run (s : State) (r : FaultRecord) :
    (s.raise r).run = .halted r := rfl
@[simp] theorem State.raise_fb (s : State) (r : FaultRecord) :
    (s.raise r).fb = s.fb := rfl
@[simp] theorem State.raise_stopRequested (s : State) (r : FaultRecord) :
    (s.raise r).stopRequested = s.stopRequested := rfl
@[simp] theorem State.raise_diag (s : State) (r : FaultRecord) :
    (s.raise r).diag = .fatal r s.snapshot :: s.diag := rfl
@[simp] theorem State.raise_inputs (s : State) (r : FaultRecord) :
    (s.raise r).inputs = s.inputs := rfl
@[simp] theorem State.raise_inputCount (s : State) (r : FaultRecord) :
    (s.raise r).inputCount = s.inputCount := rfl

/-! ## `State.fatal` -/

@[simp] theorem State.fatal_V (s : State) (c : Cause) (i : Instr) :
    (s.fatal c i).V = s.V := rfl
@[simp] theorem State.fatal_I (s : State) (c : Cause) (i : Instr) :
    (s.fatal c i).I = s.I := rfl
@[simp] theorem State.fatal_pc (s : State) (c : Cause) (i : Instr) :
    (s.fatal c i).pc = s.pc := rfl
@[simp] theorem State.fatal_stack (s : State) (c : Cause) (i : Instr) :
    (s.fatal c i).stack = s.stack := rfl
@[simp] theorem State.fatal_sp (s : State) (c : Cause) (i : Instr) :
    (s.fatal c i).sp = s.sp := rfl
@[simp] theorem State.fatal_dt (s : State) (c : Cause) (i : Instr) :
    (s.fatal c i).dt = s.dt := rfl
@[simp] theorem State.fatal_mem (s : State) (c : Cause) (i : Instr) :
    (s.fatal c i).mem = s.mem := rfl
@[simp] theorem State.fatal_run (s : State) (c : Cause) (i : Instr) :
    (s.fatal c i).run = .halted ⟨c, s.pc - 2, some (encode i)⟩ := rfl
@[simp] theorem State.fatal_fb (s : State) (c : Cause) (i : Instr) :
    (s.fatal c i).fb = s.fb := rfl
@[simp] theorem State.fatal_stopRequested (s : State) (c : Cause) (i : Instr) :
    (s.fatal c i).stopRequested = s.stopRequested := rfl
@[simp] theorem State.fatal_diag (s : State) (c : Cause) (i : Instr) :
    (s.fatal c i).diag = .fatal ⟨c, s.pc - 2, some (encode i)⟩ s.snapshot :: s.diag := rfl
@[simp] theorem State.fatal_inputs (s : State) (c : Cause) (i : Instr) :
    (s.fatal c i).inputs = s.inputs := rfl
@[simp] theorem State.fatal_inputCount (s : State) (c : Cause) (i : Instr) :
    (s.fatal c i).inputCount = s.inputCount := rfl

/-! ## `State.setResultFlag` -/

@[simp] theorem State.setResultFlag_V (s : State) (x : Reg) (r f : Byte) :
    (s.setResultFlag x r f).V = (s.V.set x.val r).set 15 f := rfl
@[simp] theorem State.setResultFlag_I (s : State) (x : Reg) (r f : Byte) :
    (s.setResultFlag x r f).I = s.I := rfl
@[simp] theorem State.setResultFlag_pc (s : State) (x : Reg) (r f : Byte) :
    (s.setResultFlag x r f).pc = s.pc := rfl
@[simp] theorem State.setResultFlag_stack (s : State) (x : Reg) (r f : Byte) :
    (s.setResultFlag x r f).stack = s.stack := rfl
@[simp] theorem State.setResultFlag_sp (s : State) (x : Reg) (r f : Byte) :
    (s.setResultFlag x r f).sp = s.sp := rfl
@[simp] theorem State.setResultFlag_dt (s : State) (x : Reg) (r f : Byte) :
    (s.setResultFlag x r f).dt = s.dt := rfl
@[simp] theorem State.setResultFlag_mem (s : State) (x : Reg) (r f : Byte) :
    (s.setResultFlag x r f).mem = s.mem := rfl
@[simp] theorem State.setResultFlag_run (s : State) (x : Reg) (r f : Byte) :
    (s.setResultFlag x r f).run = s.run := rfl
@[simp] theorem State.setResultFlag_fb (s : State) (x : Reg) (r f : Byte) :
    (s.setResultFlag x r f).fb = s.fb := rfl
@[simp] theorem State.setResultFlag_stopRequested (s : State) (x : Reg) (r f : Byte) :
    (s.setResultFlag x r f).stopRequested = s.stopRequested := rfl
@[simp] theorem State.setResultFlag_diag (s : State) (x : Reg) (r f : Byte) :
    (s.setResultFlag x r f).diag = s.diag := rfl
@[simp] theorem State.setResultFlag_inputs (s : State) (x : Reg) (r f : Byte) :
    (s.setResultFlag x r f).inputs = s.inputs := rfl
@[simp] theorem State.setResultFlag_inputCount (s : State) (x : Reg) (r f : Byte) :
    (s.setResultFlag x r f).inputCount = s.inputCount := rfl

/-! ## `State.launch` -/

@[simp] theorem State.launch_V (s : State) (font : Vector Byte 80) (rom : List Byte) :
    (s.launch font rom).V = State.reset.V := rfl
@[simp] theorem State.launch_I (s : State) (font : Vector Byte 80) (rom : List Byte) :
    (s.launch font rom).I = State.reset.I := rfl
@[simp] theorem State.launch_pc (s : State) (font : Vector Byte 80) (rom : List Byte) :
    (s.launch font rom).pc = State.reset.pc := rfl
@[simp] theorem State.launch_stack (s : State) (font : Vector Byte 80) (rom : List Byte) :
    (s.launch font rom).stack = State.reset.stack := rfl
@[simp] theorem State.launch_sp (s : State) (font : Vector Byte 80) (rom : List Byte) :
    (s.launch font rom).sp = State.reset.sp := rfl
@[simp] theorem State.launch_dt (s : State) (font : Vector Byte 80) (rom : List Byte) :
    (s.launch font rom).dt = State.reset.dt := rfl
@[simp] theorem State.launch_mem (s : State) (font : Vector Byte 80) (rom : List Byte) :
    (s.launch font rom).mem = Memory.launch font rom := rfl
@[simp] theorem State.launch_run (s : State) (font : Vector Byte 80) (rom : List Byte) :
    (s.launch font rom).run = State.reset.run := rfl
@[simp] theorem State.launch_fb (s : State) (font : Vector Byte 80) (rom : List Byte) :
    (s.launch font rom).fb = State.reset.fb := rfl
@[simp] theorem State.launch_stopRequested (s : State) (font : Vector Byte 80) (rom : List Byte) :
    (s.launch font rom).stopRequested = State.reset.stopRequested := rfl
@[simp] theorem State.launch_diag (s : State) (font : Vector Byte 80) (rom : List Byte) :
    (s.launch font rom).diag = s.diag := rfl
@[simp] theorem State.launch_inputs (s : State) (font : Vector Byte 80) (rom : List Byte) :
    (s.launch font rom).inputs = s.inputs := rfl
@[simp] theorem State.launch_inputCount (s : State) (font : Vector Byte 80) (rom : List Byte) :
    (s.launch font rom).inputCount = s.inputCount := rfl

end Sys2Proof.Machine
end

