-- ==== Sys2Proof/Laws/Ops.lean ====
section
/-! SUPPORT. One lemma per shared operation, saying everything it can do. -/

namespace Sys2Proof.Machine

/-! ## Registers -/

theorem State.reg_setReg (s : State) (x r : Reg) (b : Byte) :
    (s.setReg x b).reg r = if r = x then b else s.reg r := by
  simp only [State.reg, State.setReg_V, Vector.getElem_set]
  by_cases h : r = x
  · subst h; simp
  · have : ¬ x.val = r.val := fun e => h (Fin.ext e.symm)
    simp [h, this]

@[simp] theorem State.reg_setReg_self (s : State) (x : Reg) (b : Byte) : (s.setReg x b).reg x = b := by
  simp [State.reg_setReg]

theorem State.reg_setReg_ne (s : State) {x r : Reg} (b : Byte) (h : r ≠ x) : (s.setReg x b).reg r = s.reg r := by
  simp [State.reg_setReg, h]

/-- The flag template: VF is the flag, Vx the result unless x is F, everything else is kept. -/
theorem State.reg_setResultFlag (s : State) (x r : Reg) (res f : Byte) :
    (s.setResultFlag x res f).reg r = if r = Reg.vf then f else if r = x then res else s.reg r := by
  simp [State.setResultFlag, State.reg_setReg]

/-- A write of one register changes that register only. -/
theorem State.setReg_onlyRegs (s : State) (x : Reg) (b : Byte) : OnlyRegs [x] s (s.setReg x b) := by
  refine ⟨rfl, fun r hr => ?_, fun _ => rfl⟩
  exact State.reg_setReg_ne s b (by simpa using hr)

/-- The flag template changes Vx and VF only. -/
theorem State.setResultFlag_onlyRegs (s : State) (x : Reg) (r f : Byte) :
    OnlyRegs [x, Reg.vf] s (s.setResultFlag x r f) := by
  refine ⟨rfl, fun q hq => ?_, fun _ => rfl⟩
  simp only [List.mem_cons, List.not_mem_nil, or_false, not_or] at hq
  simp [State.reg_setResultFlag, hq.1, hq.2]

/-- A write of `pc` changes `pc` only. -/
theorem State.setPc_onlyPc (s : State) (w : Word) : OnlyPc s (s.setPc w) :=
  ⟨rfl, fun _ _ => rfl, fun _ => rfl⟩

/-- A skip moves `pc` by 2 when its condition holds, and does nothing else. -/
theorem State.skipIf_spec (s : State) (c : Bool) :
    OnlyPc s (s.skipIf c) ∧ (s.skipIf c).pc = if c then s.pc + 2 else s.pc := by
  cases c
  · exact ⟨⟨rfl, fun _ _ => rfl, fun _ => rfl⟩, rfl⟩
  · exact ⟨⟨rfl, fun _ _ => rfl, fun _ => rfl⟩, rfl⟩

theorem State.setI_onlyIndex (s : State) (w : Word) : OnlyIndex s (s.setI w) :=
  ⟨rfl, fun _ _ => rfl, fun _ => rfl⟩

/-- Loading registers in order: register `q` gets the byte at its place among those given, the others keep their own. -/
theorem loadRegs_getElem (V : Vector Byte 16) (r : Nat) (bs : List Byte) (q : Nat) (hq : q < 16) :
    (loadRegs V r bs)[q] =
      if h : r ≤ q ∧ q < r + bs.length then bs[q - r]'(by omega) else V[q] := by
  induction bs generalizing V r with
  | nil =>
    have : ¬ (r ≤ q ∧ q < r + ([] : List Byte).length) := by simp
    simp only [loadRegs, dif_neg this]
  | cons b rest ih =>
    rw [loadRegs, ih, Vector.getElem_setIfInBounds]
    by_cases hrq : r = q
    · subst hrq
      have h1 : ¬ (r + 1 ≤ r ∧ r < r + 1 + rest.length) := by omega
      have h2 : r ≤ r ∧ r < r + (b :: rest).length := by simp
      rw [dif_neg h1, dif_pos h2]
      simp
    · by_cases hin : r + 1 ≤ q ∧ q < r + 1 + rest.length
      · have h2 : r ≤ q ∧ q < r + (b :: rest).length := by
          simp only [List.length_cons]; omega
        have hidx : q - r = (q - (r + 1)) + 1 := by omega
        rw [dif_pos hin, dif_pos h2]
        simp [hidx]
      · have h2 : ¬ (r ≤ q ∧ q < r + (b :: rest).length) := by
          simp only [List.length_cons]; omega
        rw [dif_neg hin, dif_neg h2, if_neg hrq]

theorem State.regsUpTo_length (s : State) (x : Reg) : (s.regsUpTo x).length = x.val + 1 := by
  simp only [State.regsUpTo, List.length_take, Vector.length_toList]; omega

theorem State.regsUpTo_getElem (s : State) (x : Reg) (k : Nat) (h : k < (s.regsUpTo x).length) :
    (s.regsUpTo x)[k] = s.reg ⟨k, by rw [State.regsUpTo_length] at h; omega⟩ := by
  simp [State.regsUpTo, State.reg]

/-! ## Memory through the state -/

/-- A store changes the bytes stored and no other. -/
theorem State.byteAt_store (s : State) (a : Nat) (bs : List Byte) (b : Nat) :
    (s.store a bs).byteAt b = if h : a ≤ b ∧ b < a + bs.length then bs[b - a]'(by omega) else s.byteAt b := by
  simp only [State.byteAt, State.store_mem, Memory.read_writeBytes]

theorem beyondMemory_iff (hi : Nat) : beyondMemory hi = true ↔ 0xFFF < hi := by
  unfold beyondMemory Config.lastAddress
  exact decide_eq_true_iff

theorem beyondMemory_eq_false_iff (hi : Nat) : beyondMemory hi = false ↔ hi ≤ 0xFFF := by
  unfold beyondMemory Config.lastAddress
  rw [decide_eq_false_iff_not, Nat.not_lt]

theorem State.spriteBeyond_iff (s : State) (n : Nat) :
    s.spriteBeyond n = true ↔ 0 < n ∧ 0xFFF < s.I.toNat + n - 1 := by
  simp [State.spriteBeyond, State.index, beyondMemory_iff]

/-! ## The screen -/

theorem Screen.pixel_off (px : Fin 64) (py : Fin 32) : Screen.off.pixel px py = false := by
  simp [Screen.off, Screen.pixel]

/-- A toggle flips its pixel and no other. -/
theorem Screen.pixel_toggle (fb : Screen) (px qx : Fin 64) (py qy : Fin 32) :
    (fb.toggle px py).pixel qx qy = if qx = px ∧ qy = py then !fb.pixel qx qy else fb.pixel qx qy := by
  by_cases hy : py = qy
  · subst hy
    by_cases hx : px = qx
    · subst hx
      simp [Screen.toggle, Screen.pixel]
    · have h1 : ¬ px.val = qx.val := fun e => hx (Fin.ext e)
      have h2 : ¬ qx = px := fun e => hx e.symm
      simp [Screen.toggle, Screen.pixel, h1, h2]
  · have h1 : ¬ py.val = qy.val := fun e => hy (Fin.ext e)
    have h2 : ¬ qy = py := fun e => hy e.symm
    simp [Screen.toggle, Screen.pixel, h1, h2]

/-- Two screens that agree pixel by pixel are equal. -/
theorem Screen.ext_pixel {f g : Screen} (h : ∀ px py, f.pixel px py = g.pixel px py) : f = g := by
  apply Vector.ext
  intro j hj
  apply Vector.ext
  intro k hk
  exact h ⟨k, hk⟩ ⟨j, hj⟩

/-! ## The call stack -/

/-- A push with room: the slot at the old depth holds the word, every other slot keeps its own, the depth grows by 1. -/
theorem State.push_spec (s : State) (w : Word) (h : s.sp.val < 16) :
    (s.push w).sp.val = s.sp.val + 1 ∧
      ∀ j : Fin 16, (s.push w).stack[j.val] = if j.val = s.sp.val then w else s.stack[j.val] := by
  refine ⟨by simp only [State.push_sp]; omega, fun j => ?_⟩
  simp only [State.push_stack, Vector.getElem_setIfInBounds, eq_comm]

/-- A pop with an address held: `pc` is the newest slot, the depth falls by 1. -/
theorem State.pop_spec (s : State) (j : Fin 16) (h : s.sp.val = j.val + 1) :
    s.pop.pc = s.stack[j.val] ∧ s.pop.sp.val = j.val := by
  have hj : s.sp.val - 1 = j.val := by omega
  constructor
  · simp only [State.pop_pc, State.top, hj]
  · simp only [State.pop_sp, hj]

/-! ## Fatal conditions -/

/-- Raising a fatal condition halts with the record, emits one diagnostic, and changes nothing else. -/
theorem State.raise_haltsWith (s : State) (r : FaultRecord) : HaltsWith r s (s.raise r) := ⟨rfl, rfl, rfl⟩

theorem State.fatal_haltsWith (s : State) (c : Cause) (i : Instr) :
    HaltsWith ⟨c, s.pc - 2, some (encode i)⟩ s (s.fatal c i) := State.raise_haltsWith s _

/-! ## The fetch -/

/-- A fetch reads the two bytes at `pc` when both exist, and nothing otherwise. -/
theorem State.fetch_eq (s : State) :
    s.fetch = if s.pc.toNat + 1 ≤ 0xFFF then
      some (wordOfBytes (s.byteAt s.pc.toNat) (s.byteAt (s.pc.toNat + 1))) else none := by
  by_cases h : s.pc.toNat + 1 ≤ 0xFFF
  · rw [State.fetch, if_pos h, (beyondMemory_eq_false_iff _).2 h]; rfl
  · rw [State.fetch, if_neg h, (beyondMemory_iff _).2 (by omega)]; rfl

end Sys2Proof.Machine
end

