-- ==== Sys2Proof/Laws/Draw.lean ====
section
/-! SUPPORT. What drawing does, pixel by pixel: no pixel is toggled twice in one draw (43_display.md R152), so a pixel flips
exactly when a 1 bit lands on it, and the collision flag says whether such a pixel was on. -/

namespace Sys2Proof.Machine

theorem pixelColumn_inj (x0 : Byte) {a b : Nat} (ha : a < 64) (hb : b < 64)
    (h : pixelColumn x0 a = pixelColumn x0 b) : a = b := by
  have := congrArg Fin.val h
  simp only [pixelColumn] at this
  omega

theorem pixelRow_inj (y0 : Byte) {a b : Nat} (ha : a < 32) (hb : b < 32)
    (h : pixelRow y0 a = pixelRow y0 b) : a = b := by
  have := congrArg Fin.val h
  simp only [pixelRow] at this
  omega

/-- A 1 bit among the first `m` columns of byte `b` lands on column `px`. -/
def ByteCovers (b x0 : Byte) (m : Nat) (px : Fin 64) : Prop :=
  ∃ col, col < m ∧ b.getLsbD (7 - col) = true ∧ px = pixelColumn x0 col

/-- A canvas is what flipping the pixels of `P` makes of another one, collisions included. -/
structure Flipped (P : Fin 64 → Fin 32 → Prop) (c d : Canvas) : Prop where
  flips : ∀ px py, P px py → d.fb.pixel px py = !c.fb.pixel px py
  keeps : ∀ px py, ¬ P px py → d.fb.pixel px py = c.fb.pixel px py
  collides : d.collision = true ↔ c.collision = true ∨ ∃ px py, P px py ∧ c.fb.pixel px py = true

theorem Flipped.none {P : Fin 64 → Fin 32 → Prop} (h : ∀ px py, ¬ P px py) (c : Canvas) : Flipped P c c where
  flips := fun px py hp => absurd hp (h px py)
  keeps := fun _ _ _ => rfl
  collides := ⟨Or.inl, fun o => o.elim id fun ⟨px, py, hp, _⟩ => absurd hp (h px py)⟩

/-- Flipping two disjoint sets of pixels one after the other flips their union. -/
theorem Flipped.comp {P Q R : Fin 64 → Fin 32 → Prop} {c d e : Canvas} (hp : Flipped P c d) (hq : Flipped Q d e)
    (hd : ∀ px py, P px py → ¬ Q px py) (hr : ∀ px py, R px py ↔ P px py ∨ Q px py) : Flipped R c e where
  flips := by
    intro px py h
    rcases (hr px py).1 h with hP | hQ
    · rw [hq.keeps px py (hd px py hP), hp.flips px py hP]
    · have hnP : ¬ P px py := fun hP => hd px py hP hQ
      rw [hq.flips px py hQ, hp.keeps px py hnP]
  keeps := by
    intro px py h
    have hnP : ¬ P px py := fun hP => h ((hr px py).2 (Or.inl hP))
    have hnQ : ¬ Q px py := fun hQ => h ((hr px py).2 (Or.inr hQ))
    rw [hq.keeps px py hnQ, hp.keeps px py hnP]
  collides := by
    rw [hq.collides, hp.collides]
    constructor
    · rintro ((h | ⟨px, py, hP, hon⟩) | ⟨px, py, hQ, hon⟩)
      · exact Or.inl h
      · exact Or.inr ⟨px, py, (hr px py).2 (Or.inl hP), hon⟩
      · have hnP : ¬ P px py := fun hP => hd px py hP hQ
        exact Or.inr ⟨px, py, (hr px py).2 (Or.inr hQ), by rwa [hp.keeps px py hnP] at hon⟩
    · rintro (h | ⟨px, py, hR, hon⟩)
      · exact Or.inl (Or.inl h)
      · rcases (hr px py).1 hR with hP | hQ
        · exact Or.inl (Or.inr ⟨px, py, hP, hon⟩)
        · have hnP : ¬ P px py := fun hP => hd px py hP hQ
          exact Or.inr ⟨px, py, hQ, by rwa [hp.keeps px py hnP]⟩

/-- A toggle flips one pixel and reports whether it was on. -/
theorem Canvas.toggle_flipped (c : Canvas) (px : Fin 64) (py : Fin 32) :
    Flipped (fun qx qy => qx = px ∧ qy = py) c (c.toggle px py) where
  flips := fun qx qy h => by simp only [Canvas.toggle, Screen.pixel_toggle, if_pos h]
  keeps := fun qx qy h => by simp only [Canvas.toggle, Screen.pixel_toggle, if_neg h]
  collides := by
    simp only [Canvas.toggle, Screen.pixel_toggle, and_self, if_true, Bool.or_eq_true, Bool.not_not]
    constructor
    · rintro (h | h)
      · exact Or.inl h
      · exact Or.inr ⟨px, py, ⟨rfl, rfl⟩, h⟩
    · rintro (h | ⟨qx, qy, ⟨rfl, rfl⟩, h⟩)
      · exact Or.inl h
      · exact Or.inr h

theorem Canvas.drawBit_flipped (c : Canvas) (b x0 : Byte) (py : Fin 32) (col : Nat) :
    Flipped (fun qx qy => b.getLsbD (7 - col) = true ∧ qx = pixelColumn x0 col ∧ qy = py) c
      (c.drawBit b x0 py col) := by
  by_cases hb : b.getLsbD (7 - col) = true
  · simp only [Canvas.drawBit, hb, true_and]
    exact Canvas.toggle_flipped c _ py
  · simp only [Canvas.drawBit, if_neg hb]
    exact Flipped.none (fun _ _ h => hb h.1) c

/-- The first `m` columns of a sprite row. -/
theorem Canvas.drawColumns_flipped (c : Canvas) (b x0 : Byte) (py : Fin 32) (m : Nat) (hm : m ≤ 64) :
    Flipped (fun qx qy => ByteCovers b x0 m qx ∧ qy = py) c
      ((List.range m).foldl (fun c col => c.drawBit b x0 py col) c) := by
  induction m with
  | zero => exact Flipped.none (fun _ _ h => by obtain ⟨⟨col, hc, _⟩, _⟩ := h; omega) c
  | succ m ih =>
    rw [List.range_succ, List.foldl_append]
    refine Flipped.comp (ih (by omega)) (Canvas.drawBit_flipped _ b x0 py m) ?_ ?_
    · rintro px qy ⟨⟨col, hc, _, hpx⟩, _⟩ ⟨_, hpx', _⟩
      have := pixelColumn_inj x0 (by omega) (by omega) (hpx.symm.trans hpx')
      omega
    · intro px qy
      constructor
      · rintro ⟨⟨col, hc, hb, hpx⟩, hqy⟩
        by_cases h : col = m
        · subst h; exact Or.inr ⟨hb, hpx, hqy⟩
        · exact Or.inl ⟨⟨col, by omega, hb, hpx⟩, hqy⟩
      · rintro (⟨⟨col, hc, hb, hpx⟩, hqy⟩ | ⟨hb, hpx, hqy⟩)
        · exact ⟨⟨col, by omega, hb, hpx⟩, hqy⟩
        · exact ⟨⟨m, by omega, hb, hpx⟩, hqy⟩

/-- One sprite row: the pixels its 1 bits land on flip. -/
theorem Canvas.drawByte_flipped (c : Canvas) (b x0 : Byte) (py : Fin 32) :
    Flipped (fun qx qy => ByteCovers b x0 8 qx ∧ qy = py) c (c.drawByte b x0 py) :=
  Canvas.drawColumns_flipped c b x0 py 8 (by omega)

/-- A 1 bit of the sprite rows `bs`, the first of them row `row`, lands on pixel (px, py). -/
def RowsCover (bs : List Byte) (x0 y0 : Byte) (row : Nat) (px : Fin 64) (py : Fin 32) : Prop :=
  ∃ k, ∃ h : k < bs.length, ByteCovers bs[k] x0 8 px ∧ py = pixelRow y0 (row + k)

/-- A whole sprite: the pixels its 1 bits land on flip, each once, and the collision is reported. -/
theorem Canvas.drawRows_flipped (bs : List Byte) (x0 y0 : Byte) (row : Nat) (c : Canvas)
    (h : row + bs.length ≤ 32) : Flipped (RowsCover bs x0 y0 row) c (Canvas.drawRows c x0 y0 row bs) := by
  induction bs generalizing row c with
  | nil => exact Flipped.none (fun _ _ hc => by obtain ⟨k, hk, _⟩ := hc; simp at hk) c
  | cons b rest ih =>
    simp only [List.length_cons] at h
    refine Flipped.comp (Canvas.drawByte_flipped c b x0 (pixelRow y0 row)) (ih (row + 1) _ (by omega)) ?_ ?_
    · rintro px py ⟨_, hpy⟩ ⟨k, hk, _, hpy'⟩
      have := pixelRow_inj y0 (by omega) (by omega) (hpy.symm.trans hpy')
      omega
    · intro px py
      constructor
      · rintro ⟨k, hk, hc, hpy⟩
        cases k with
        | zero => exact Or.inl ⟨by simpa using hc, by simpa using hpy⟩
        | succ k =>
          refine Or.inr ⟨k, by simpa using hk, by simpa using hc, ?_⟩
          rw [hpy]; congr 1; omega
      · rintro (⟨hc, hpy⟩ | ⟨k, hk, hc, hpy⟩)
        · exact ⟨0, by simp, by simpa using hc, by simpa using hpy⟩
        · refine ⟨k + 1, by simpa using hk, by simpa using hc, ?_⟩
          rw [hpy]; congr 1; omega

end Sys2Proof.Machine
end

