-- ==== Sys2Proof/Laws/Exec.lean ====
section
/-! SUPPORT. The next state of each instruction whose meaning has cases, one lemma per case; the other instructions' next
states are their meanings' own, by rfl. -/

namespace Sys2Proof.Machine

theorem exec_ret_empty {s : State} (h : s.sp.val = 0) : exec .ret s = .next (s.fatal .stackUnderflow .ret) :=
  congrArg Host.Outcome.next (if_pos h)

theorem exec_ret_held {s : State} (h : s.sp.val ≠ 0) : exec .ret s = .next s.pop :=
  congrArg Host.Outcome.next (if_neg h)

theorem exec_call_full {s : State} (nnn : Word) (h : s.sp.val = 16) :
    exec (.call nnn) s = .next (s.fatal .stackOverflow (.call nnn)) :=
  congrArg Host.Outcome.next (if_pos h)

theorem exec_call_room {s : State} (nnn : Word) (h : s.sp.val ≠ 16) :
    exec (.call nnn) s = .next ((s.push s.pc).setPc nnn) :=
  congrArg Host.Outcome.next (if_neg h)

theorem exec_ldBVx_beyond {s : State} (x : Reg) (h : 0xFFF < s.I.toNat + 2) :
    exec (.ldBVx x) s = .next (s.fatal .addressData (.ldBVx x)) :=
  congrArg Host.Outcome.next (if_pos ((beyondMemory_iff _).2 h))

theorem exec_ldBVx_inside {s : State} (x : Reg) (h : s.I.toNat + 2 ≤ 0xFFF) :
    exec (.ldBVx x) s = .next (s.store s.I.toNat (bcdDigits (s.reg x))) :=
  congrArg Host.Outcome.next (if_neg (by rw [beyondMemory_iff]; simp only [State.index]; omega))

theorem exec_ldImemVx_beyond {s : State} (x : Reg) (h : 0xFFF < s.I.toNat + x.val) :
    exec (.ldImemVx x) s = .next (s.fatal .addressData (.ldImemVx x)) :=
  congrArg Host.Outcome.next (if_pos ((beyondMemory_iff _).2 h))

theorem exec_ldImemVx_inside {s : State} (x : Reg) (h : s.I.toNat + x.val ≤ 0xFFF) :
    exec (.ldImemVx x) s =
      .next ((s.store s.I.toNat (s.regsUpTo x)).setI (BitVec.ofNat 16 (s.I.toNat + x.val + 1))) :=
  congrArg Host.Outcome.next (if_neg (by rw [beyondMemory_iff]; simp only [State.index]; omega))

theorem exec_ldVxImem_beyond {s : State} (x : Reg) (h : 0xFFF < s.I.toNat + x.val) :
    exec (.ldVxImem x) s = .next (s.fatal .addressData (.ldVxImem x)) :=
  congrArg Host.Outcome.next (if_pos ((beyondMemory_iff _).2 h))

theorem exec_ldVxImem_inside {s : State} (x : Reg) (h : s.I.toNat + x.val ≤ 0xFFF) :
    exec (.ldVxImem x) s =
      .next { s with V := loadRegs s.V 0 (Memory.readBytes s.mem s.I.toNat (x.val + 1))
                     I := BitVec.ofNat 16 (s.I.toNat + x.val + 1) } :=
  congrArg Host.Outcome.next (if_neg (by rw [beyondMemory_iff]; simp only [State.index]; omega))

/-- What a draw leaves on the canvas. -/
def drawnCanvas (x y : Reg) (n : Nat) (s : State) : Canvas :=
  Canvas.drawRows ⟨s.fb, false⟩ (s.reg x) (s.reg y) 0 (Memory.readBytes s.mem s.I.toNat n)

theorem exec_drw_beyond {s : State} (x y : Reg) (n : Nat) (h : 0 < n ∧ 0xFFF < s.I.toNat + n - 1) :
    exec (.drw x y n) s = .next (s.fatal .addressData (.drw x y n)) :=
  congrArg Host.Outcome.next (if_pos ((s.spriteBeyond_iff n).2 h))

theorem exec_drw_inside {s : State} (x y : Reg) (n : Nat) (h : 0 < n → s.I.toNat + n - 1 ≤ 0xFFF) :
    exec (.drw x y n) s = .next ((s.setFb (drawnCanvas x y n s).fb).setReg Reg.vf
      (flagByte (drawnCanvas x y n s).collision)) :=
  congrArg Host.Outcome.next (if_neg (by rw [State.spriteBeyond_iff]; omega))

theorem keyNumber_eq_some {v : Byte} {k : Key} (h : v.toNat = k.val) : keyNumber v = some k := by
  have hlt := k.isLt
  unfold keyNumber
  rw [dif_pos (by omega)]
  exact congrArg some (Fin.ext h)

theorem keyNumber_eq_none {v : Byte} (h : 15 < v.toNat) : keyNumber v = none := by
  unfold keyNumber
  rw [dif_neg (by omega)]

theorem exec_skp_key {s : State} (x : Reg) (k : Key) (h : (s.reg x).toNat = k.val) :
    exec (.skp x) s = .next (s.skipIf (s.isPressed k)) := by
  simp only [exec, execSkp, keyNumber_eq_some h]

theorem exec_skp_beyond {s : State} (x : Reg) (h : 15 < (s.reg x).toNat) :
    exec (.skp x) s = .next (s.fatal .keyIndex (.skp x)) := by
  simp only [exec, execSkp, keyNumber_eq_none h]

theorem exec_sknp_key {s : State} (x : Reg) (k : Key) (h : (s.reg x).toNat = k.val) :
    exec (.sknp x) s = .next (s.skipIf (!s.isPressed k)) := by
  simp only [exec, execSknp, keyNumber_eq_some h]

theorem exec_sknp_beyond {s : State} (x : Reg) (h : 15 < (s.reg x).toNat) :
    exec (.sknp x) s = .next (s.fatal .keyIndex (.sknp x)) := by
  simp only [exec, execSknp, keyNumber_eq_none h]

theorem exec_ldVxK_none {s : State} (x : Reg) (h : s.anyPressed = none) : exec (.ldVxK x) s = .next s.rewind := by
  simp only [exec, execLdVxK, h]

theorem exec_ldVxK_some {s : State} (x : Reg) (k : Key) (h : s.anyPressed = some k) :
    exec (.ldVxK x) s = .next (s.setReg x (keyByte k)) := by
  simp only [exec, execLdVxK, h]

end Sys2Proof.Machine
end

