-- ==== Sys2Proof/Laws/PerInstr.lean ====
section
/-! SUPPORT. Statements about every instruction as syntax, one lemma per constructor. -/

namespace Sys2Proof.Laws

/-- The instruction's word is selected by its own row of the opcode map (30_encoding.md R86). -/
def EncodingMatchesRow.Statement (i : Instr) : Prop :=
  ∃ row ∈ opcodeRows, row.mnemonic = i.mnemonic ∧ encode i &&& row.mask = row.pattern

theorem EncodingMatchesRow.cls : EncodingMatchesRow.Statement (.cls) :=
  ⟨⟨"CLS", 0xFFFF, 0x00E0⟩, by simp [opcodeRows], rfl, rfl⟩

theorem EncodingMatchesRow.ret : EncodingMatchesRow.Statement (.ret) :=
  ⟨⟨"RET", 0xFFFF, 0x00EE⟩, by simp [opcodeRows], rfl, rfl⟩

theorem EncodingMatchesRow.jp (nnn : Word) : EncodingMatchesRow.Statement (.jp nnn) :=
  ⟨⟨"JP", 0xF000, 0x1000⟩, by simp [opcodeRows], rfl, by rw [mask_F000, encode, fieldFam_encodeNnn]; rfl⟩

theorem EncodingMatchesRow.call (nnn : Word) : EncodingMatchesRow.Statement (.call nnn) :=
  ⟨⟨"CALL", 0xF000, 0x2000⟩, by simp [opcodeRows], rfl, by rw [mask_F000, encode, fieldFam_encodeNnn]; rfl⟩

theorem EncodingMatchesRow.seImm (x : Reg) (kk : Byte) : EncodingMatchesRow.Statement (.seImm x kk) :=
  ⟨⟨"SE_VX_KK", 0xF000, 0x3000⟩, by simp [opcodeRows], rfl, by rw [mask_F000, encode, fieldFam_encodeXkk]; rfl⟩

theorem EncodingMatchesRow.sneImm (x : Reg) (kk : Byte) : EncodingMatchesRow.Statement (.sneImm x kk) :=
  ⟨⟨"SNE_VX_KK", 0xF000, 0x4000⟩, by simp [opcodeRows], rfl, by rw [mask_F000, encode, fieldFam_encodeXkk]; rfl⟩

theorem EncodingMatchesRow.seReg (x y : Reg) : EncodingMatchesRow.Statement (.seReg x y) :=
  ⟨⟨"SE_VX_VY", 0xF00F, 0x5000⟩, by simp [opcodeRows], rfl, by rw [mask_F00F, encode, fieldFam_encodeXyn, fieldN_encodeXyn]; rfl⟩

theorem EncodingMatchesRow.ldImm (x : Reg) (kk : Byte) : EncodingMatchesRow.Statement (.ldImm x kk) :=
  ⟨⟨"LD_VX_KK", 0xF000, 0x6000⟩, by simp [opcodeRows], rfl, by rw [mask_F000, encode, fieldFam_encodeXkk]; rfl⟩

theorem EncodingMatchesRow.addImm (x : Reg) (kk : Byte) : EncodingMatchesRow.Statement (.addImm x kk) :=
  ⟨⟨"ADD_VX_KK", 0xF000, 0x7000⟩, by simp [opcodeRows], rfl, by rw [mask_F000, encode, fieldFam_encodeXkk]; rfl⟩

theorem EncodingMatchesRow.ldReg (x y : Reg) : EncodingMatchesRow.Statement (.ldReg x y) :=
  ⟨⟨"LD_VX_VY", 0xF00F, 0x8000⟩, by simp [opcodeRows], rfl, by rw [mask_F00F, encode, fieldFam_encodeXyn, fieldN_encodeXyn]; rfl⟩

theorem EncodingMatchesRow.or (x y : Reg) : EncodingMatchesRow.Statement (.or x y) :=
  ⟨⟨"OR", 0xF00F, 0x8001⟩, by simp [opcodeRows], rfl, by rw [mask_F00F, encode, fieldFam_encodeXyn, fieldN_encodeXyn]; rfl⟩

theorem EncodingMatchesRow.and (x y : Reg) : EncodingMatchesRow.Statement (.and x y) :=
  ⟨⟨"AND", 0xF00F, 0x8002⟩, by simp [opcodeRows], rfl, by rw [mask_F00F, encode, fieldFam_encodeXyn, fieldN_encodeXyn]; rfl⟩

theorem EncodingMatchesRow.xor (x y : Reg) : EncodingMatchesRow.Statement (.xor x y) :=
  ⟨⟨"XOR", 0xF00F, 0x8003⟩, by simp [opcodeRows], rfl, by rw [mask_F00F, encode, fieldFam_encodeXyn, fieldN_encodeXyn]; rfl⟩

theorem EncodingMatchesRow.addReg (x y : Reg) : EncodingMatchesRow.Statement (.addReg x y) :=
  ⟨⟨"ADD_VX_VY", 0xF00F, 0x8004⟩, by simp [opcodeRows], rfl, by rw [mask_F00F, encode, fieldFam_encodeXyn, fieldN_encodeXyn]; rfl⟩

theorem EncodingMatchesRow.sub (x y : Reg) : EncodingMatchesRow.Statement (.sub x y) :=
  ⟨⟨"SUB", 0xF00F, 0x8005⟩, by simp [opcodeRows], rfl, by rw [mask_F00F, encode, fieldFam_encodeXyn, fieldN_encodeXyn]; rfl⟩

theorem EncodingMatchesRow.shr (x y : Reg) : EncodingMatchesRow.Statement (.shr x y) :=
  ⟨⟨"SHR", 0xF00F, 0x8006⟩, by simp [opcodeRows], rfl, by rw [mask_F00F, encode, fieldFam_encodeXyn, fieldN_encodeXyn]; rfl⟩

theorem EncodingMatchesRow.subn (x y : Reg) : EncodingMatchesRow.Statement (.subn x y) :=
  ⟨⟨"SUBN", 0xF00F, 0x8007⟩, by simp [opcodeRows], rfl, by rw [mask_F00F, encode, fieldFam_encodeXyn, fieldN_encodeXyn]; rfl⟩

theorem EncodingMatchesRow.shl (x y : Reg) : EncodingMatchesRow.Statement (.shl x y) :=
  ⟨⟨"SHL", 0xF00F, 0x800E⟩, by simp [opcodeRows], rfl, by rw [mask_F00F, encode, fieldFam_encodeXyn, fieldN_encodeXyn]; rfl⟩

theorem EncodingMatchesRow.sneReg (x y : Reg) : EncodingMatchesRow.Statement (.sneReg x y) :=
  ⟨⟨"SNE_VX_VY", 0xF00F, 0x9000⟩, by simp [opcodeRows], rfl, by rw [mask_F00F, encode, fieldFam_encodeXyn, fieldN_encodeXyn]; rfl⟩

theorem EncodingMatchesRow.ldI (nnn : Word) : EncodingMatchesRow.Statement (.ldI nnn) :=
  ⟨⟨"LD_I_NNN", 0xF000, 0xA000⟩, by simp [opcodeRows], rfl, by rw [mask_F000, encode, fieldFam_encodeNnn]; rfl⟩

theorem EncodingMatchesRow.jpV0 (nnn : Word) : EncodingMatchesRow.Statement (.jpV0 nnn) :=
  ⟨⟨"JP_V0", 0xF000, 0xB000⟩, by simp [opcodeRows], rfl, by rw [mask_F000, encode, fieldFam_encodeNnn]; rfl⟩

theorem EncodingMatchesRow.rnd (x : Reg) (kk : Byte) : EncodingMatchesRow.Statement (.rnd x kk) :=
  ⟨⟨"RND", 0xF000, 0xC000⟩, by simp [opcodeRows], rfl, by rw [mask_F000, encode, fieldFam_encodeXkk]; rfl⟩

theorem EncodingMatchesRow.drw (x y : Reg) (n : Nat) : EncodingMatchesRow.Statement (.drw x y n) :=
  ⟨⟨"DRW", 0xF000, 0xD000⟩, by simp [opcodeRows], rfl, by rw [mask_F000, encode, fieldFam_encodeXyn]; rfl⟩

theorem EncodingMatchesRow.skp (x : Reg) : EncodingMatchesRow.Statement (.skp x) :=
  ⟨⟨"SKP", 0xF0FF, 0xE09E⟩, by simp [opcodeRows], rfl, by rw [mask_F0FF, encode, fieldFam_encodeXkk, fieldKk_encodeXkk]; rfl⟩

theorem EncodingMatchesRow.sknp (x : Reg) : EncodingMatchesRow.Statement (.sknp x) :=
  ⟨⟨"SKNP", 0xF0FF, 0xE0A1⟩, by simp [opcodeRows], rfl, by rw [mask_F0FF, encode, fieldFam_encodeXkk, fieldKk_encodeXkk]; rfl⟩

theorem EncodingMatchesRow.ldVxDt (x : Reg) : EncodingMatchesRow.Statement (.ldVxDt x) :=
  ⟨⟨"LD_VX_DT", 0xF0FF, 0xF007⟩, by simp [opcodeRows], rfl, by rw [mask_F0FF, encode, fieldFam_encodeXkk, fieldKk_encodeXkk]; rfl⟩

theorem EncodingMatchesRow.ldVxK (x : Reg) : EncodingMatchesRow.Statement (.ldVxK x) :=
  ⟨⟨"LD_VX_K", 0xF0FF, 0xF00A⟩, by simp [opcodeRows], rfl, by rw [mask_F0FF, encode, fieldFam_encodeXkk, fieldKk_encodeXkk]; rfl⟩

theorem EncodingMatchesRow.ldDtVx (x : Reg) : EncodingMatchesRow.Statement (.ldDtVx x) :=
  ⟨⟨"LD_DT_VX", 0xF0FF, 0xF015⟩, by simp [opcodeRows], rfl, by rw [mask_F0FF, encode, fieldFam_encodeXkk, fieldKk_encodeXkk]; rfl⟩

theorem EncodingMatchesRow.addIVx (x : Reg) : EncodingMatchesRow.Statement (.addIVx x) :=
  ⟨⟨"ADD_I_VX", 0xF0FF, 0xF01E⟩, by simp [opcodeRows], rfl, by rw [mask_F0FF, encode, fieldFam_encodeXkk, fieldKk_encodeXkk]; rfl⟩

theorem EncodingMatchesRow.ldFVx (x : Reg) : EncodingMatchesRow.Statement (.ldFVx x) :=
  ⟨⟨"LD_F_VX", 0xF0FF, 0xF029⟩, by simp [opcodeRows], rfl, by rw [mask_F0FF, encode, fieldFam_encodeXkk, fieldKk_encodeXkk]; rfl⟩

theorem EncodingMatchesRow.ldBVx (x : Reg) : EncodingMatchesRow.Statement (.ldBVx x) :=
  ⟨⟨"LD_B_VX", 0xF0FF, 0xF033⟩, by simp [opcodeRows], rfl, by rw [mask_F0FF, encode, fieldFam_encodeXkk, fieldKk_encodeXkk]; rfl⟩

theorem EncodingMatchesRow.ldImemVx (x : Reg) : EncodingMatchesRow.Statement (.ldImemVx x) :=
  ⟨⟨"LD_IMEM_VX", 0xF0FF, 0xF055⟩, by simp [opcodeRows], rfl, by rw [mask_F0FF, encode, fieldFam_encodeXkk, fieldKk_encodeXkk]; rfl⟩

theorem EncodingMatchesRow.ldVxImem (x : Reg) : EncodingMatchesRow.Statement (.ldVxImem x) :=
  ⟨⟨"LD_VX_IMEM", 0xF0FF, 0xF065⟩, by simp [opcodeRows], rfl, by rw [mask_F0FF, encode, fieldFam_encodeXkk, fieldKk_encodeXkk]; rfl⟩

end Sys2Proof.Laws
end

