-- ==== Sys2Proof/Laws/Step.lean ====
section
/-! SUPPORT. Everything one step can do, said once: later proofs cite these instead of unfolding the step. -/

namespace Sys2Proof.Machine

/-- The outcomes of a cycle that has a next state. -/
inductive CycleResult (s : State) : State → Prop where
  | ended (h : s.Ended) : CycleResult s s
  | fetchFault (h : s.run = .running) (hf : s.fetch = none) : CycleResult s s.fetchFault
  | unknown (op : Word) (h : s.run = .running) (hf : s.fetch = some op) (hd : decodeRow op = none) :
      CycleResult s (s.advance.unknownOpcode op)
  | instruction (op : Word) (i : Instr) (t : State) (h : s.run = .running) (hf : s.fetch = some op)
      (hd : decode op = .ok i) (he : exec i s.advance = .next t) : CycleResult s t

theorem decode_eq_ok_iff (op : Word) (i : Instr) : decode op = .ok i ↔ decodeRow op = some i := by
  unfold decode
  cases decodeRow op <;> simp

theorem decode_eq_error_iff (op : Word) (e : DecodeError) :
    decode op = .error e ↔ decodeRow op = none ∧ e = .unknownOpcode op := by
  unfold decode
  cases decodeRow op <;> simp [eq_comm]

theorem cycleTurn_cases {s t : State} (h : cycleTurn s = .next t) : CycleResult s t := by
  unfold cycleTurn at h
  split at h
  · next hr =>
    split at h
    · next hf => cases h; exact .fetchFault hr hf
    · next op hf =>
      unfold executeWord at h
      split at h
      · next i hd => exact .instruction op i t hr hf hd h
      · next e hd => cases h; exact .unknown op hr hf ((decode_eq_error_iff op e).1 hd).1
  · next r hr => cases h; exact .ended (by simp [State.Ended, hr])
  · next hr => cases h; exact .ended (by simp [State.Ended, hr])

/-- The outcomes of a step that has a next state: the next state is one of these with the step's input used up. -/
inductive StepResult (s : State) : State → Prop where
  | cycle (t : State) (hi : s.input.turn = .cycle) (h : CycleResult s t) : StepResult s t.consumeInput
  | tick (hi : s.input.turn = .tick) : StepResult s s.tick.consumeInput
  | stop (hi : s.input.turn = .stop) : StepResult s s.requestStop.consumeInput
  | reset (font : Vector Byte 80) (rom : List Byte) (hi : s.input.turn = .reset font rom)
      (h : rom.length ≤ Config.maxRom) : StepResult s (s.launch font rom).consumeInput

theorem consumed_eq_next {o : Host.Outcome State Fault Refusal} {t : State} (h : consumed o = .next t) :
    ∃ u, o = .next u ∧ t = u.consumeInput := by
  cases o with
  | next u => cases h; exact ⟨u, rfl, rfl⟩
  | fault f => cases h
  | refused r => cases h

theorem step_cases {s t : State} (h : step s = .next t) : StepResult s t := by
  obtain ⟨u, hu, rfl⟩ := consumed_eq_next h
  unfold runTurn at hu
  split at hu
  · next hi => exact .cycle u hi (cycleTurn_cases hu)
  · next hi => cases hu; exact .tick hi
  · next hi => cases hu; exact .stop hi
  · next font rom hi =>
    unfold resetTurn at hu
    split at hu
    · next hr => cases hu; exact .reset font rom hi hr
    · cases hu

/-- A tick of a running machine without a pending stop request is the timer's own step. -/
theorem State.tick_running {s : State} (h : s.run = .running) (hs : s.stopRequested = false) :
    s.tick = s.decrementTimer := by
  unfold State.tick
  rw [h, hs]
  rfl

theorem State.tick_stopping {s : State} (h : s.run = .running) (hs : s.stopRequested = true) :
    s.tick = { s with run := .stopped } := by
  unfold State.tick
  rw [h, hs]
  rfl

theorem State.tick_ended {s : State} (h : s.Ended) : s.tick = s := by
  unfold State.tick
  split
  · next hr => exact absurd hr h
  · rfl
  · rfl

theorem State.requestStop_ended {s : State} (h : s.Ended) : s.requestStop = s := by
  unfold State.requestStop
  split
  · next hr => exact absurd hr h
  · rfl
  · rfl

theorem cycleTurn_ended {s : State} (h : s.Ended) : cycleTurn s = .next s := by
  unfold cycleTurn
  split
  · next hr => exact absurd hr h
  · rfl
  · rfl

/-- The timer's step: one down from a value that is not 0, and nothing else. -/
theorem State.decrementTimer_spec (s : State) :
    s.decrementTimer.dt.toNat = s.dt.toNat - 1 ∧ s.decrementTimer = { s with dt := s.decrementTimer.dt } := by
  unfold State.decrementTimer
  split
  · next h =>
    refine ⟨?_, rfl⟩
    have hpos : s.dt.toNat ≠ 0 := fun e => h (BitVec.eq_of_toNat_eq (by simpa using e))
    have hlt := s.dt.isLt
    show (s.dt - 1).toNat = s.dt.toNat - 1
    rw [BitVec.toNat_sub]
    have h1 : (1 : Byte).toNat = 1 := rfl
    omega
  · next h =>
    refine ⟨?_, rfl⟩
    have : s.dt = 0 := by simpa using h
    simp [this]

/-- A cycle that fetches an instruction is `exec` of it after the advance. -/
theorem cycleTurn_instruction {s : State} {op : Word} {i : Instr} (h : s.run = .running) (hf : s.fetch = some op)
    (hd : decode op = .ok i) : cycleTurn s = exec i s.advance := by
  unfold cycleTurn
  rw [h]
  simp only [hf, executeWord, hd]

/-- A cycle that cannot fetch raises AddressFault.Fetch. -/
theorem cycleTurn_fetchFault {s : State} (h : s.run = .running) (hf : s.fetch = none) :
    cycleTurn s = .next s.fetchFault := by
  unfold cycleTurn
  rw [h]
  simp only [hf]

/-- A cycle that fetches an unknown word only advances and reports it. -/
theorem cycleTurn_unknown {s : State} {op : Word} {e : DecodeError} (h : s.run = .running) (hf : s.fetch = some op)
    (hd : decode op = .error e) : cycleTurn s = .next (s.advance.unknownOpcode op) := by
  unfold cycleTurn
  rw [h]
  simp only [hf, executeWord, hd]

theorem step_cycle {s : State} (hi : s.input.turn = .cycle) : step s = consumed (cycleTurn s) := by
  unfold step runTurn
  rw [hi]

theorem step_tick {s : State} (hi : s.input.turn = .tick) : step s = .next s.tick.consumeInput := by
  unfold step runTurn
  rw [hi]
  rfl

theorem step_stop {s : State} (hi : s.input.turn = .stop) : step s = .next s.requestStop.consumeInput := by
  unfold step runTurn
  rw [hi]
  rfl

theorem step_reset {s : State} {font : Vector Byte 80} {rom : List Byte} (hi : s.input.turn = .reset font rom) :
    step s = consumed (resetTurn font rom s) := by
  unfold step runTurn
  rw [hi]

end Sys2Proof.Machine
end

