-- ==== Sys2Proof/Tests/Slice0.lean ====
section
/-! SUPPORT. Tests of the model. Expected results are those of spec/95_test_vectors.md (its id stands in each comment) or of
the rule cited; every word is written out from 30_encoding.md R86. The last part shows, for each obligation that has
hypotheses, a concrete input that meets them. -/

namespace Sys2Proof.Tests

set_option Elab.async false

open Sys2Proof Sys2Proof.Machine

/-! ## Ill-formed instructions are refused by WellFormed (R81, R83) -/

theorem test_wellFormed_refuses_wide_address :
    ((Instr.jp 0x1000).wellFormed, (Instr.call 0x1000).wellFormed, (Instr.ldI 0x1000).wellFormed,
      (Instr.jpV0 0x1000).wellFormed) = (false, false, false, false) := by decide

theorem test_wellFormed_refuses_wide_count : (Instr.drw 0 0 16).wellFormed = false := by decide

theorem test_wellFormed_accepts_boundary :
    ((Instr.jp 0xFFF).wellFormed, (Instr.drw 15 15 15).wellFormed) = (true, true) := by decide

/-! ## Decoding: one word per row, written bit by bit from the patterns of R86 -/

theorem test_decode_cls : decodeRow 0b0000000011100000 = some .cls := by decide
theorem test_decode_ret : decodeRow 0b0000000011101110 = some .ret := by decide
theorem test_decode_jp : decodeRow 0b0001_1010_1011_1100 = some (.jp 0xABC) := by decide
theorem test_decode_call : decodeRow 0b0010_1010_1011_1100 = some (.call 0xABC) := by decide
theorem test_decode_seImm : decodeRow 0b0011_1010_1011_1100 = some (.seImm 0xA 0xBC) := by decide
theorem test_decode_sneImm : decodeRow 0b0100_1010_1011_1100 = some (.sneImm 0xA 0xBC) := by decide
theorem test_decode_seReg : decodeRow 0b0101_1010_1011_0000 = some (.seReg 0xA 0xB) := by decide
theorem test_decode_ldImm : decodeRow 0b0110_1010_1011_1100 = some (.ldImm 0xA 0xBC) := by decide
theorem test_decode_addImm : decodeRow 0b0111_1010_1011_1100 = some (.addImm 0xA 0xBC) := by decide
theorem test_decode_ldReg : decodeRow 0b1000_1010_1011_0000 = some (.ldReg 0xA 0xB) := by decide
theorem test_decode_or : decodeRow 0b1000_1010_1011_0001 = some (.or 0xA 0xB) := by decide
theorem test_decode_and : decodeRow 0b1000_1010_1011_0010 = some (.and 0xA 0xB) := by decide
theorem test_decode_xor : decodeRow 0b1000_1010_1011_0011 = some (.xor 0xA 0xB) := by decide
/-- The word of E1. -/
theorem test_decode_addReg : decodeRow 0b1000_1010_1011_0100 = some (.addReg 0xA 0xB) := by decide
theorem test_decode_sub : decodeRow 0b1000_1010_1011_0101 = some (.sub 0xA 0xB) := by decide
theorem test_decode_shr : decodeRow 0b1000_1010_1011_0110 = some (.shr 0xA 0xB) := by decide
theorem test_decode_subn : decodeRow 0b1000_1010_1011_0111 = some (.subn 0xA 0xB) := by decide
theorem test_decode_shl : decodeRow 0b1000_1010_1011_1110 = some (.shl 0xA 0xB) := by decide
theorem test_decode_sneReg : decodeRow 0b1001_1010_1011_0000 = some (.sneReg 0xA 0xB) := by decide
theorem test_decode_ldI : decodeRow 0b1010_1010_1011_1100 = some (.ldI 0xABC) := by decide
theorem test_decode_jpV0 : decodeRow 0b1011_1010_1011_1100 = some (.jpV0 0xABC) := by decide
theorem test_decode_rnd : decodeRow 0b1100_1010_1011_1100 = some (.rnd 0xA 0xBC) := by decide
theorem test_decode_drw : decodeRow 0b1101_1010_1011_1100 = some (.drw 0xA 0xB 0xC) := by decide
theorem test_decode_skp : decodeRow 0b1110_1010_1001_1110 = some (.skp 0xA) := by decide
theorem test_decode_sknp : decodeRow 0b1110_1010_1010_0001 = some (.sknp 0xA) := by decide
theorem test_decode_ldVxDt : decodeRow 0b1111_1010_0000_0111 = some (.ldVxDt 0xA) := by decide
theorem test_decode_ldVxK : decodeRow 0b1111_1010_0000_1010 = some (.ldVxK 0xA) := by decide
theorem test_decode_ldDtVx : decodeRow 0b1111_1010_0001_0101 = some (.ldDtVx 0xA) := by decide
theorem test_decode_addIVx : decodeRow 0b1111_1010_0001_1110 = some (.addIVx 0xA) := by decide
theorem test_decode_ldFVx : decodeRow 0b1111_1010_0010_1001 = some (.ldFVx 0xA) := by decide
theorem test_decode_ldBVx : decodeRow 0b1111_1010_0011_0011 = some (.ldBVx 0xA) := by decide
theorem test_decode_ldImemVx : decodeRow 0b1111_1010_0101_0101 = some (.ldImemVx 0xA) := by decide
theorem test_decode_ldVxImem : decodeRow 0b1111_1010_0110_0101 = some (.ldVxImem 0xA) := by decide

/-- TU1 to TU10, TF19, TF23, TK7: none of these words is an instruction. -/
theorem test_decode_unknown :
    [0x0000, 0x0123, 0x00E1, 0x00FF, 0x8128, 0x812F, 0xF318, 0xF375, 0xE000, 0xFFFF, 0x5121, 0x912F, 0xE59F].map decodeRow
      = List.replicate 13 none := by decide

/-- Big-endian: the first byte in memory is the high one (E1). -/
theorem test_decodeBytes_high_first : decodeBytes [0x8A, 0xB4, 0x77] = .ok (.addReg 0xA 0xB, [0x77]) := by rfl

theorem test_decodeTableWord : decodeTableWord 16 0xD015 = some (.drw 0 1 5) := by decide

/-! ## One cycle on a small state -/

/-- An input for a cycle with no key down and random byte 0. -/
def quiet : Input := { turn := .cycle, keys := Vector.replicate 16 false, anyPressed := none, randomByte := 0 }

/-- `quiet` with the keys of `ks` down. -/
def keysDown (ks : List Key) : Input := { quiet with keys := Vector.ofFn fun k => decide (k ∈ ks) }

/-- The state `s` with the word `w` at address `a`, `pc` there, and one input given. -/
def placed (w a : Word) (s : State) (i : Input := quiet) : State :=
  { s with mem := Memory.writeBytes s.mem a.toNat [highByte w, lowByte w], pc := a, inputs := [i] }

/-- The reset state with these registers written. -/
def withRegs : List (Reg × Byte) → State
  | [] => State.reset
  | (r, b) :: rest => (withRegs rest).setReg r b

/-- A screen with these pixels on. -/
def screenOf : List (Fin 64 × Fin 32) → Screen
  | [] => Screen.off
  | (px, py) :: rest => (screenOf rest).toggle px py

/-- What `f` shows of the next state, if the step has one. -/
def view {α : Type} (o : Host.Outcome State Fault Refusal) (f : State → α) : Option α :=
  match o with
  | .next t => some (f t)
  | .fault _ => none
  | .refused _ => none

/-- TD1. -/
theorem test_cls : view (step (placed 0x00E0 0x200 { withRegs [(15, 1)] with fb := screenOf [(0, 0), (63, 31)] }))
    (fun t => (t.fb, t.reg 15, t.pc)) = some (screenOf [], 1, 0x202) := by decide +kernel

/-- TF2. -/
theorem test_ret_pops_newest_slot :
    view (step (placed 0x00EE 0x300 { State.reset with
      sp := 16, stack := (State.reset.stack.set 15 0xABC).set 14 0x111 })) (fun t => (t.pc, t.sp, t.run))
      = some (0xABC, 15, .running) := by decide +kernel

/-- TF3. -/
theorem test_ret_underflow : view (step (placed 0x00EE 0x200 State.reset)) (fun t => (t.pc, t.sp, t.run))
    = some (0x202, 0, .halted ⟨.stackUnderflow, 0x200, some 0x00EE⟩) := by decide +kernel

/-- TF6. -/
theorem test_jp : view (step (placed 0x1FFF 0x200 State.reset)) (fun t => (t.pc, t.run)) = some (0xFFF, .running) := by
  decide +kernel

/-- TF9. -/
theorem test_call_sixteenth : view (step (placed 0x2500 0x3FE { State.reset with sp := 15 }))
    (fun t => (t.pc, t.sp, t.stack[15], t.stack[14])) = some (0x500, 16, 0x400, 0) := by decide +kernel

/-- TF10. -/
theorem test_call_overflow : view (step (placed 0x2500 0x3FE { State.reset with sp := 16 }))
    (fun t => (t.pc, t.sp, t.stack[15], t.run))
    = some (0x400, 16, 0, .halted ⟨.stackOverflow, 0x3FE, some 0x2500⟩) := by decide +kernel

/-- TF11. -/
theorem test_seImm_skips : view (step (placed 0x332A 0x200 (withRegs [(3, 0x2A)]))) State.pc = some 0x204 := by
  decide +kernel

/-- TF12. -/
theorem test_seImm_stays : view (step (placed 0x332B 0x200 (withRegs [(3, 0x2A)]))) State.pc = some 0x202 := by
  decide +kernel

/-- TF14. -/
theorem test_sneImm_stays : view (step (placed 0x432A 0x200 (withRegs [(3, 0x2A)]))) State.pc = some 0x202 := by
  decide +kernel

/-- TF15. -/
theorem test_sneImm_skips : view (step (placed 0x4300 0x200 (withRegs [(3, 0x2A)]))) State.pc = some 0x204 := by
  decide +kernel

/-- TF16. -/
theorem test_seReg_skips : view (step (placed 0x5120 0x200 (withRegs [(1, 7), (2, 7)]))) State.pc = some 0x204 := by
  decide +kernel

/-- TF17. -/
theorem test_seReg_stays : view (step (placed 0x5120 0x200 (withRegs [(1, 7), (2, 8)]))) State.pc = some 0x202 := by
  decide +kernel

/-- TF20. -/
theorem test_sneReg_skips : view (step (placed 0x9120 0x200 (withRegs [(1, 7), (2, 8)]))) State.pc = some 0x204 := by
  decide +kernel

/-- TF22. -/
theorem test_sneReg_same_register : view (step (placed 0x9330 0x200 (withRegs [(3, 0x99)]))) State.pc = some 0x202 := by
  decide +kernel

/-- TF25: 0FFF + FF is not masked. -/
theorem test_jpV0_unmasked : view (step (placed 0xBFFF 0x200 (withRegs [(0, 0xFF)]))) (fun t => (t.pc, t.run))
    = some (0x10FE, .running) := by decide +kernel

/-- TF26: the offset is V0, not V2. -/
theorem test_jpV0_reads_v0 : view (step (placed 0xB2FF 0x200 (withRegs [(2, 0x55)]))) State.pc = some 0x2FF := by
  decide +kernel

/-- TF27: a skip at 0FFE leaves pc at 1002 with no fault. -/
theorem test_skip_past_memory : view (step (placed 0x3000 0xFFE State.reset)) (fun t => (t.pc, t.run))
    = some (0x1002, .running) := by decide +kernel

/-- TF28. -/
theorem test_fetch_fault : view (step { State.reset with pc := 0xFFF, inputs := [quiet] }) (fun t => (t.pc, t.run))
    = some (0xFFF, .halted ⟨.addressFetch, 0xFFF, none⟩) := by decide +kernel

/-- TA2: VF is an ordinary destination. -/
theorem test_ldImm_vf : view (step (placed 0x6F55 0x200 State.reset)) (fun t => (t.reg 15, t.pc)) = some (0x55, 0x202) := by
  decide +kernel

/-- TA3. -/
theorem test_addImm_wraps : view (step (placed 0x7205 0x200 (withRegs [(2, 0xFE)]))) (fun t => (t.reg 2, t.reg 15))
    = some (0x03, 0) := by decide +kernel

/-- TA4: VF is no flag here. -/
theorem test_addImm_keeps_vf : view (step (placed 0x72FF 0x200 (withRegs [(15, 7)]))) (fun t => (t.reg 2, t.reg 15))
    = some (0xFF, 7) := by decide +kernel

/-- TA6. -/
theorem test_ldReg : view (step (placed 0x8350 0x200 (withRegs [(5, 0x77), (15, 1)]))) (fun t => (t.reg 3, t.reg 15))
    = some (0x77, 1) := by decide +kernel

/-- TA8: with x = F the result is lost. -/
theorem test_or_vf_destination : view (step (placed 0x8F11 0x200 (withRegs [(1, 0x0F), (15, 0xF0)])))
    (fun t => (t.reg 1, t.reg 15)) = some (0x0F, 0) := by decide +kernel

/-- TA9: with y = F the old VF is read. -/
theorem test_or_vf_source : view (step (placed 0x81F1 0x200 (withRegs [(1, 0x0F), (15, 0xF0)])))
    (fun t => (t.reg 1, t.reg 15)) = some (0xFF, 0) := by decide +kernel

/-- TA10. -/
theorem test_and : view (step (placed 0x8122 0x200 (withRegs [(1, 0x3C), (2, 0x0F), (15, 1)])))
    (fun t => (t.reg 1, t.reg 2, t.reg 15)) = some (0x0C, 0x0F, 0) := by decide +kernel

/-- TA11. -/
theorem test_xor : view (step (placed 0x8123 0x200 (withRegs [(1, 0xFF), (2, 0x0F), (15, 1)])))
    (fun t => (t.reg 1, t.reg 2, t.reg 15)) = some (0xF0, 0x0F, 0) := by decide +kernel

/-- TA13, E3. -/
theorem test_addReg_carry : view (step (placed 0x8124 0x200 (withRegs [(1, 0xBB), (2, 0xCC)])))
    (fun t => (t.reg 1, t.reg 15)) = some (0x87, 1) := by decide +kernel

/-- TA19: with x = F the sum is lost. -/
theorem test_addReg_vf_destination : view (step (placed 0x8F14 0x200 (withRegs [(1, 1), (15, 0x10)])))
    (fun t => t.reg 15) = some 0 := by decide +kernel

/-- TA22, E4. -/
theorem test_sub_borrow : view (step (placed 0x8125 0x200 (withRegs [(1, 0x44), (2, 0x55), (15, 1)])))
    (fun t => (t.reg 1, t.reg 15)) = some (0xEF, 0) := by decide +kernel

/-- TA23: equal operands do not borrow. -/
theorem test_sub_equal : view (step (placed 0x8125 0x200 (withRegs [(1, 0x44), (2, 0x44)])))
    (fun t => (t.reg 1, t.reg 15)) = some (0, 1) := by decide +kernel

/-- TA29: the old Vx has no influence. -/
theorem test_shr_reads_vy : view (step (placed 0x8126 0x200 (withRegs [(1, 0xAA), (2, 5)])))
    (fun t => (t.reg 1, t.reg 2, t.reg 15)) = some (2, 5, 1) := by decide +kernel

/-- TA34: with y = F. -/
theorem test_shr_vf_source : view (step (placed 0x81F6 0x200 (withRegs [(15, 7)])))
    (fun t => (t.reg 1, t.reg 15)) = some (3, 1) := by decide +kernel

/-- TA36. -/
theorem test_subn_borrow : view (step (placed 0x8127 0x200 (withRegs [(1, 0x55), (2, 0x44), (15, 1)])))
    (fun t => (t.reg 1, t.reg 15)) = some (0xEF, 0) := by decide +kernel

/-- TA39: with y = F. -/
theorem test_subn_vf_source : view (step (placed 0x80F7 0x200 (withRegs [(0, 5), (15, 9)])))
    (fun t => (t.reg 0, t.reg 15)) = some (4, 1) := by decide +kernel

/-- TA40. -/
theorem test_shl_reads_vy : view (step (placed 0x812E 0x200 (withRegs [(2, 0x81)])))
    (fun t => (t.reg 1, t.reg 2, t.reg 15)) = some (2, 0x81, 1) := by decide +kernel

/-- TA43: with x = F the result is lost. -/
theorem test_shl_vf_destination : view (step (placed 0x8F2E 0x200 (withRegs [(2, 0xC0), (15, 0x33)])))
    (fun t => t.reg 15) = some 1 := by decide +kernel

/-- TA45. -/
theorem test_rnd : view (step (placed 0xC30F 0x200 State.reset { quiet with randomByte := 0xB7 }))
    (fun t => (t.reg 3, t.pc)) = some (7, 0x202) := by decide +kernel

/-- TA48. -/
theorem test_rnd_vf : view (step (placed 0xCFF0 0x200 State.reset { quiet with randomByte := 0xAB }))
    (fun t => t.reg 15) = some 0xA0 := by decide +kernel

/-- TM2. -/
theorem test_ldI : view (step (placed 0xAFFF 0x200 { State.reset with I := 0x1234 })) State.I = some 0xFFF := by
  decide +kernel

/-- TM3: `I` passes 0FFF with no flag. -/
theorem test_addIVx_passes_fff : view (step (placed 0xF11E 0x200 { withRegs [(1, 5)] with I := 0xFFE }))
    (fun t => (t.I, t.reg 15, t.run)) = some (0x1003, 0, .running) := by decide +kernel

/-- TM4. -/
theorem test_addIVx_wraps : view (step (placed 0xF11E 0x200 { withRegs [(1, 2)] with I := 0xFFFF })) State.I
    = some 1 := by decide +kernel

/-- TM8: only the low digit selects. -/
theorem test_ldFVx_low_digit : view (step (placed 0xF429 0x200 (withRegs [(4, 0x37)]))) State.I = some 0x73 := by
  decide +kernel

/-- TM9. -/
theorem test_ldFVx_last_glyph : view (step (placed 0xF429 0x200 (withRegs [(4, 0xFF)]))) State.I = some 0x9B := by
  decide +kernel

/-- TM11. -/
theorem test_ldBVx : view (step (placed 0xF033 0x200 { withRegs [(0, 0xFE)] with I := 0x300 }))
    (fun t => (Memory.readBytes t.mem 0x300 3, t.I)) = some ([2, 5, 4], 0x300) := by decide +kernel

/-- TM16. -/
theorem test_ldBVx_beyond : view (step (placed 0xF033 0x200 { withRegs [(0, 0x64)] with I := 0xFFE }))
    (fun t => (Memory.readBytes t.mem 0xFFE 2, t.run))
    = some ([0, 0], .halted ⟨.addressData, 0x200, some 0xF033⟩) := by decide +kernel

/-- TM20: the last legal place. -/
theorem test_ldImemVx_top : view (step (placed 0xF155 0x200 { withRegs [(0, 0xAB), (1, 0xCD)] with I := 0xFFE }))
    (fun t => (Memory.readBytes t.mem 0xFFE 2, t.I)) = some ([0xAB, 0xCD], 0x1000) := by decide +kernel

/-- TM21: nothing is stored. -/
theorem test_ldImemVx_beyond : view (step (placed 0xF155 0x200 { withRegs [(0, 0xAB), (1, 0xCD)] with I := 0xFFF }))
    (fun t => (t.byteAt 0xFFF, t.I, t.run))
    = some (0, 0xFFF, .halted ⟨.addressData, 0x200, some 0xF155⟩) := by decide +kernel

/-- TM23: V3 is untouched. -/
theorem test_ldVxImem : view (step (placed 0xF265 0x200 ({ withRegs [(3, 0x77)] with I := 0x300 }.store 0x300 [2, 5, 4, 9])))
    (fun t => (([0, 1, 2, 3] : List Reg).map t.reg, t.I)) = some ([2, 5, 4, 0x77], 0x303) := by decide +kernel

/-- TM25. -/
theorem test_ldVxImem_beyond : view (step (placed 0xF165 0x200 ({ State.reset with I := 0xFFF }.store 0xFFF [0x5A])))
    (fun t => (t.reg 0, t.I, t.run)) = some (0, 0xFFF, .halted ⟨.addressData, 0x200, some 0xF165⟩) := by decide +kernel

/-- TD7: a sprite wraps within its row. -/
theorem test_drw_wraps : view (step (placed 0xD011 0x200
      ({ withRegs [(0, 0x3E), (1, 0x1F)] with I := 0x300 }.store 0x300 [0x81])))
    (fun t => (t.fb, t.reg 15, t.I)) = some (screenOf [(5, 31), (62, 31)], 0, 0x300) := by decide +kernel

/-- TD5: one pixel that goes off is a collision. -/
theorem test_drw_collision : view (step (placed 0xD011 0x200
      ({ State.reset with I := 0x300, fb := screenOf [(1, 0)] }.store 0x300 [0xC0])))
    (fun t => (t.fb, t.reg 15)) = some (screenOf [(0, 0)], 1) := by decide +kernel

/-- TK1. -/
theorem test_skp : view (step (placed 0xE59E 0x200 (withRegs [(5, 0x0A)]) (keysDown [0xA]))) State.pc = some 0x204 := by
  decide +kernel

/-- TK3. -/
theorem test_skp_beyond : view (step (placed 0xE59E 0x200 (withRegs [(5, 0x10)]) (keysDown [0])))
    (fun t => (t.pc, t.run)) = some (0x202, .halted ⟨.keyIndex, 0x200, some 0xE59E⟩) := by decide +kernel

/-- TK5. -/
theorem test_sknp : view (step (placed 0xE5A1 0x200 (withRegs [(5, 0x0A)]) (keysDown [0xA]))) State.pc = some 0x202 := by
  decide +kernel

/-- TK6. -/
theorem test_sknp_beyond : view (step (placed 0xE5A1 0x200 (withRegs [(5, 0xFF)])))
    (fun t => (t.pc, t.run)) = some (0x202, .halted ⟨.keyIndex, 0x200, some 0xE5A1⟩) := by decide +kernel

/-- TK8. -/
theorem test_ldVxDt : view (step (placed 0xF307 0x200 { State.reset with dt := 0x2D })) (fun t => (t.reg 3, t.dt))
    = some (0x2D, 0x2D) := by decide +kernel

/-- TK10. -/
theorem test_ldDtVx : view (step (placed 0xF315 0x200 (withRegs [(3, 0x3C)]))) (fun t => (t.dt, t.reg 3))
    = some (0x3C, 0x3C) := by decide +kernel

/-- TK12. -/
theorem test_ldVxK_waits : view (step (placed 0xF20A 0x300 State.reset)) (fun t => (t.pc, t.reg 2)) = some (0x300, 0) := by
  decide +kernel

/-- TK14: key 0 is a key. -/
theorem test_ldVxK_zero : view (step (placed 0xF20A 0x300 (withRegs [(2, 0x55)]) { quiet with anyPressed := some 0 }))
    (fun t => (t.pc, t.reg 2)) = some (0x302, 0) := by decide +kernel

/-- TU2: only `pc` changes. -/
theorem test_unknown_only_advances :
    view (step (placed 0x0123 0x200 { withRegs [(1, 5)] with I := 0x222, sp := 3, dt := 9 }))
      (fun t => (t.pc, t.reg 1, t.I, t.sp, t.dt)) = some (0x202, 5, 0x222, 3, 9) := by decide +kernel

/-- TU7: the word is reported. -/
theorem test_unknown_reported : view (step (placed 0xF318 0x200 (withRegs [(3, 0x20)]))) State.diag
    = some [.unknown 0x200 0xF318] := by decide +kernel

/-! ## The other turns -/

/-- The state with one input of this turn given. -/
def turned (t : Turn) (s : State) : State := { s with inputs := [{ quiet with turn := t }] }

/-- The tick vectors of 95_test_vectors.md section 2.5. -/
theorem test_tick : [0x05, 0x01, 0x00, 0xFF].map
      (fun d => view (step (turned .tick { State.reset with dt := d })) (fun t => (t.dt, t.run)))
    = [some (0x04, .running), some (0x00, .running), some (0x00, .running), some (0xFE, .running)] := by decide +kernel

/-- A stop request ends the run at the next tick, before the decrement (R201). -/
theorem test_stop_at_tick : view (step (turned .tick { State.reset with dt := 5, stopRequested := true }))
    (fun t => (t.dt, t.run)) = some (5, .stopped) := by decide +kernel

/-- Raising the request changes nothing yet (R201). -/
theorem test_stop_waits : view (step (turned .stop State.reset)) (fun t => (t.run, t.stopRequested))
    = some (.running, true) := by decide +kernel

/-- A reset loads the program at 0200 and leaves Halted (R220, R222). -/
theorem test_reset_launches : view (step (turned (.reset Config.fontData [0x12, 0x34])
      { withRegs [(3, 9)] with run := .halted ⟨.keyIndex, 0, none⟩, pc := 0x777, dt := 4 }))
    (fun t => (t.pc, t.reg 3, t.dt, t.run, Memory.readBytes t.mem 0x200 3))
    = some (0x200, 0, 0, .running, [0x12, 0x34, 0]) := by decide +kernel

/-- The default font as R52 gives it: glyphs 0 and F (unlisted memory). -/
theorem test_font : (Memory.readBytes [] 0x50 5, Memory.readBytes [] 0x9B 5, Memory.read [] 0xA0)
    = ([0xF0, 0x90, 0x90, 0x90, 0xF0], [0xF0, 0x80, 0xF0, 0x80, 0x80], 0) := by decide +kernel

/-- `withFetchWord` makes 6A3C (TA1) the first instruction after reset. -/
theorem test_first_instruction : view (step (State.reset.withFetchWord 16 0x6A3C)) (fun t => (t.reg 0xA, t.pc))
    = some (0x3C, 0x202) := by decide +kernel

/-! ## Every obligation's hypotheses can be met

One theorem per obligation with hypotheses, at boundary values where a clause has a range. -/

/-- `State.reset` with a cycle as its next input. -/
def ready : State := { State.reset with inputs := [quiet] }

theorem witness_DecodeOfEncode :
    (Instr.drw 15 15 15).wellFormed = true ∧ (Instr.jp 0xFFF).wellFormed = true ∧ (Instr.jp 0).wellFormed = true := by decide

theorem witness_EncodeOfDecode : decode 0xDFFF = .ok (.drw 15 15 15) ∧ decode 0x00E0 = .ok .cls := by constructor <;> rfl

theorem witness_DecodeFollowsOpcodeRows :
    (⟨"SHL", 0xF00F, 0x800E⟩ : OpcodeRow) ∈ opcodeRows ∧ (0x812E : Word) &&& 0xF00F = 0x800E := by decide

/-- 0x5121 is a word of no row, 0x5120 of one. -/
theorem witness_UnknownExactlyWhenNoRow :
    decode 0x5121 = .error (.unknownOpcode 0x5121) ∧
      (∀ row : OpcodeRow, row ∈ opcodeRows → (0x5121 : Word) &&& row.mask ≠ row.pattern) ∧
      (⟨"SE_VX_VY", 0xF00F, 0x5000⟩ : OpcodeRow) ∈ opcodeRows ∧ (0x5120 : Word) &&& 0xF00F = 0x5000 :=
  ⟨rfl, by decide, by decide, by decide⟩

theorem witness_OpcodeRowsDisjoint :
    (⟨"CLS", 0xFFFF, 0x00E0⟩ : OpcodeRow) ∈ opcodeRows ∧ (0x00E0 : Word) &&& 0xFFFF = 0x00E0 := by decide

theorem witness_BytesDecodeInStream : (Instr.ldImemVx 15).wellFormed = true := by decide

/-- At the reset address, and at 0xFFE, the highest address a fetch can read at. -/
theorem witness_StepRunsDecodedInstruction :
    (let s := placed 0x6A3C 0x200 State.reset;
      s.run = .running ∧ s.input.turn = .cycle ∧ s.pc.toNat + 1 ≤ 0xFFF ∧
        decodeBytes [s.byteAt s.pc.toNat, s.byteAt (s.pc.toNat + 1)] = .ok (.ldImm 0xA 0x3C, [])) ∧
    (let s := placed 0x00EE 0xFFE State.reset;
      s.run = .running ∧ s.input.turn = .cycle ∧ s.pc.toNat + 1 ≤ 0xFFF ∧
        decodeBytes [s.byteAt s.pc.toNat, s.byteAt (s.pc.toNat + 1)] = .ok (.ret, [])) :=
  ⟨⟨rfl, rfl, by decide, rfl⟩, ⟨rfl, rfl, by decide, rfl⟩⟩

theorem witness_FetchIsBigEndian :
    (placed 0 0xFFE State.reset).pc.toNat + 1 ≤ 0xFFF ∧ (placed 0 0x201 State.reset).pc.toNat + 1 ≤ 0xFFF := by decide

theorem witness_FetchBeyondMemoryHalts :
    (let s : State := { ready with pc := 0xFFF };
      s.run = .running ∧ s.input.turn = .cycle ∧ 0xFFF ≤ s.pc.toNat) ∧
    (let s : State := { ready with pc := 0xFFFF };
      s.run = .running ∧ s.input.turn = .cycle ∧ 0xFFF ≤ s.pc.toNat) :=
  ⟨⟨rfl, rfl, by decide⟩, ⟨rfl, rfl, by decide⟩⟩

theorem witness_UnknownWordOnlyAdvances :
    let s := placed 0x5121 0x200 State.reset
    s.run = .running ∧ s.input.turn = .cycle ∧ s.fetch = some 0x5121 ∧
      ∀ row : OpcodeRow, row ∈ opcodeRows → (0x5121 : Word) &&& row.mask ≠ row.pattern :=
  ⟨rfl, rfl, by decide, by decide⟩

theorem witness_EveryCycleHasNextState : ready.input.turn = .cycle := rfl

/-- The largest target; with V0 = 0xFF it is 0x10FE. -/
theorem witness_JumpV0AddsV0 : (0xFFF : Word).toNat < 0x1000 ∧ (0 : Word).toNat < 0x1000 := by decide

theorem witness_CallPushesReturnAddress :
    State.reset.sp.val < 16 ∧ ({ State.reset with sp := 15 } : State).sp.val < 16 := by decide

theorem witness_ReturnPopsReturnAddress :
    ({ State.reset with sp := 1 } : State).sp.val = (0 : Fin 16).val + 1 ∧
      ({ State.reset with sp := 16 } : State).sp.val = (15 : Fin 16).val + 1 := by decide

/-- The state after the CALL is itself a state for the RET. -/
theorem witness_CallThenReturn :
    State.reset.sp.val < 16 ∧ ({ State.reset with sp := 15 } : State).sp.val < 16 ∧
      ∃ t u : State, exec (.call 0x300) State.reset = .next t ∧ u.stack = t.stack ∧ u.sp = t.sp :=
  ⟨by decide, by decide, _, _, rfl, rfl, rfl⟩

theorem witness_StackFaultsHalt : ({ State.reset with sp := 16 } : State).sp.val = 16 ∧ State.reset.sp.val = 0 := by decide

/-- Both clauses of each skip, equal and different, and a word of each row. -/
theorem witness_SkipOnImmediate :
    (0x3FFF : Word) &&& 0xF000 = 0x3000 ∧ (0x4FFF : Word) &&& 0xF000 = 0x4000 ∧ State.reset.reg 3 = 0 ∧ State.reset.reg 3 ≠ 0xFF := by decide

theorem witness_SkipOnRegisters :
    State.reset.reg 1 = State.reset.reg 2 ∧ (withRegs [(1, 7)]).reg 1 ≠ (withRegs [(1, 7)]).reg 2 := by decide

theorem witness_LoadsIntoRegister : (0x6FFF : Word) &&& 0xF000 = 0x6000 ∧ (0x8FF0 : Word) &&& 0xF00F = 0x8000 := by decide

/-- A word of the row, and the clause about kk = 0. -/
theorem witness_AddImmediateWraps : (0x7FFF : Word) &&& 0xF000 = 0x7000 ∧ (0 : Byte) = 0 := by decide

/-- The clauses about x other than F, and the bits below 8. -/
theorem witness_LogicClearsFlag : (0 : Reg) ≠ Reg.vf ∧ (14 : Reg) ≠ Reg.vf ∧ (0 : Nat) < 8 ∧ (7 : Nat) < 8 := by decide

/-- Sums 256 and 255, and x other than F. -/
theorem witness_AddSetsCarry :
    (14 : Reg) ≠ Reg.vf ∧
      255 < ((withRegs [(1, 0xFF), (2, 1)]).reg 1).toNat + ((withRegs [(1, 0xFF), (2, 1)]).reg 2).toNat ∧
      ((withRegs [(1, 0xFF)]).reg 1).toNat + ((withRegs [(1, 0xFF)]).reg 2).toNat ≤ 255 := by decide

/-- Equal operands, and operands that differ by 1 in either order. -/
theorem witness_SubtractSetsNotBorrow :
    (0 : Reg) ≠ Reg.vf ∧ (State.reset.reg 2).toNat ≤ (State.reset.reg 1).toNat ∧
      ((withRegs [(1, 7), (2, 8)]).reg 1).toNat < ((withRegs [(1, 7), (2, 8)]).reg 2).toNat ∧
      ((withRegs [(1, 8), (2, 7)]).reg 2).toNat < ((withRegs [(1, 8), (2, 7)]).reg 1).toNat := by decide

theorem witness_ShiftsReadVy : (0 : Reg) ≠ Reg.vf ∧ (14 : Reg) ≠ Reg.vf := by decide

/-- The bits that kk = 0x0F clears. -/
theorem witness_RandomIsMasked :
    (0xCFFF : Word) &&& 0xF000 = 0xC000 ∧ (0x0F : Byte).getLsbD 4 = false ∧ (0x0F : Byte).getLsbD 8 = false := by decide

theorem witness_LoadsIntoIndex : (0xAFFF : Word) &&& 0xF000 = 0xA000 ∧ (0xFF29 : Word) &&& 0xF0FF = 0xF029 ∧
    (Instr.ldI 0xFFF).wellFormed = true ∧ (Instr.ldI 0).wellFormed = true := by decide

theorem witness_DecimalDigitsStored :
    ({ State.reset with I := 0xFFD } : State).I.toNat + 2 ≤ 0xFFF ∧ State.reset.I.toNat + 2 ≤ 0xFFF := by decide

theorem witness_RegistersStored :
    ({ State.reset with I := 0xFFF } : State).I.toNat + (0 : Reg).val ≤ 0xFFF ∧
      ({ State.reset with I := 0xFF0 } : State).I.toNat + (15 : Reg).val ≤ 0xFFF ∧ (15 : Reg) ≤ 15 := by decide

theorem witness_RegistersLoaded :
    ({ State.reset with I := 0xFFF } : State).I.toNat + (0 : Reg).val ≤ 0xFFF ∧
      ({ State.reset with I := 0xFF0 } : State).I.toNat + (15 : Reg).val ≤ 0xFFF ∧ (14 : Reg) < 15 ∧ (15 : Reg) ≤ 15 := by
  decide

/-- The state after the store with `I` set back. -/
theorem witness_StoreThenLoadRestores :
    let s : State := { withRegs [(0, 0xAB)] with I := 0xFF0 }
    s.I.toNat + (15 : Reg).val ≤ 0xFFF ∧
      ∃ t u : State, exec (.ldImemVx 15) s = .next t ∧ u.mem = t.mem ∧ u.I = s.I ∧ (0 : Reg) ≤ 15 :=
  ⟨by decide, _, { State.reset with mem := _, I := 0xFF0 }, rfl, rfl, rfl, by decide⟩

/-- The word stored by P10, and the last two registers at the top of memory. -/
theorem witness_StoredWordIsFetched :
    (let s : State := { State.reset with I := 0x208, pc := 0x208 };
      s.I.toNat + (1 : Reg).val ≤ 0xFFF ∧ (1 : Reg).val = (0 : Reg).val + 1 ∧ (1 : Reg) ≤ 1 ∧
        s.pc.toNat = s.I.toNat + (0 : Reg).val) ∧
    (let s : State := { State.reset with I := 0xFF0, pc := 0xFFE };
      s.I.toNat + (15 : Reg).val ≤ 0xFFF ∧ (15 : Reg).val = (14 : Reg).val + 1 ∧ (15 : Reg) ≤ 15 ∧
        s.pc.toNat = s.I.toNat + (14 : Reg).val) := by decide

/-- A one-row sprite at the last byte, no rows with `I` beyond memory, 15 rows up to the last byte; a pixel the sprite covers,
that is on, and one it does not cover. -/
theorem witness_DrawXorsSprite :
    (let s : State := { State.reset with I := 0xFFF };
      1 < 16 ∧ (0 < 1 → s.I.toNat + 1 - 1 ≤ 0xFFF)) ∧
    (let s : State := { State.reset with I := 0xFFFF };
      0 < 16 ∧ (0 < 0 → s.I.toNat + 0 - 1 ≤ 0xFFF)) ∧
    (let s : State := { State.reset with I := 0xFF1 };
      15 < 16 ∧ (0 < 15 → s.I.toNat + 15 - 1 ≤ 0xFFF)) ∧
    (let s : State := { State.reset with I := 0x050, fb := screenOf [(0, 0)] };
      SpriteCovers s 0 1 1 0 0 ∧ s.fb.pixel 0 0 = true ∧ ¬ SpriteCovers s 0 1 1 0 31) := by
  refine ⟨by decide, by decide, by decide, ⟨0, 0, by decide, by decide, by decide +kernel, by decide, by decide⟩,
    by decide +kernel, ?_⟩
  rintro ⟨row, col, hr, _, _, _, h⟩
  obtain rfl : row = 0 := by omega
  exact absurd h (by decide)

/-- No collision at all: a clear screen. -/
theorem witness_DrawXorsSprite_clear :
    ¬ ∃ px py, SpriteCovers State.reset 0 1 1 px py ∧ State.reset.fb.pixel px py = true := by
  rintro ⟨px, py, _, h⟩
  revert h
  simp [State.reset, Screen.pixel]

theorem witness_ClearTurnsAllPixelsOff : ∀ px py, State.reset.fb.pixel px py = false :=
  fun px py => by simp [State.reset, Screen.pixel]

theorem witness_DrawTwiceErases :
    (0 : Reg) ≠ Reg.vf ∧ (14 : Reg) ≠ Reg.vf ∧ 15 < 16 ∧
      (0 < 15 → ({ State.reset with I := 0xFF1 } : State).I.toNat + 15 - 1 ≤ 0xFFF) ∧
      ∀ px py, State.reset.fb.pixel px py = false :=
  ⟨by decide, by decide, by decide, by decide, fun px py => by simp [State.reset, Screen.pixel]⟩

/-- Keys 0 and 15, down and not down. -/
theorem witness_SkipOnKeyState :
    (State.reset.reg 5).toNat = (0 : Key).val ∧ ((withRegs [(5, 15)]).reg 5).toNat = (15 : Key).val ∧
      (placed 0xE59E 0x200 (withRegs [(5, 15)]) (keysDown [15])).isPressed 15 = true ∧
      (placed 0xE59E 0x200 State.reset).isPressed 0 = false := by decide

/-- No key, key 0, key 15. -/
theorem witness_KeyWaitOrLoad :
    ready.anyPressed = none ∧
      ({ ready with inputs := [{ quiet with anyPressed := some 0 }] } : State).anyPressed = some 0 ∧
      ({ ready with inputs := [{ quiet with anyPressed := some 15 }] } : State).anyPressed = some 15 := by decide

theorem witness_WaitingCycleChangesNothing :
    let s := placed 0xF20A 0x300 State.reset
    s.run = .running ∧ s.input.turn = .cycle ∧ s.fetch = some 0xF20A ∧ decode 0xF20A = .ok (.ldVxK 2) ∧
      s.anyPressed = none :=
  ⟨rfl, rfl, by decide, rfl, rfl⟩

/-- Each cause of the table, at the first value that meets it, and at the last that does not. -/
theorem witness_FatalConditionsAreExact :
    faultCause (.call 0) { State.reset with sp := 16 } = some .stackOverflow ∧
      faultCause (.call 0) { State.reset with sp := 15 } = none ∧
      faultCause .ret State.reset = some .stackUnderflow ∧ faultCause .ret { State.reset with sp := 1 } = none ∧
      faultCause (.ldBVx 0) { State.reset with I := 0xFFE } = some .addressData ∧
      faultCause (.ldBVx 0) { State.reset with I := 0xFFD } = none ∧
      faultCause (.drw 0 0 2) { State.reset with I := 0xFFF } = some .addressData ∧
      faultCause (.drw 0 0 0) { State.reset with I := 0xFFFF } = none ∧
      faultCause (.skp 5) (withRegs [(5, 16)]) = some .keyIndex ∧ faultCause (.sknp 5) (withRegs [(5, 15)]) = none := by
  decide

/-- A Halted and a Stopped machine, each with a cycle to come. -/
theorem witness_EndedRunStaysAsItIs :
    (let s : State := { ready with run := .halted ⟨.keyIndex, 0x200, some 0xE59E⟩ };
      s.Ended ∧ ∀ font rom, s.input.turn ≠ .reset font rom) ∧
    (let s : State := { ready with run := .stopped };
      s.Ended ∧ ∀ font rom, s.input.turn ≠ .reset font rom) :=
  ⟨⟨nofun, nofun⟩, ⟨nofun, nofun⟩⟩

theorem witness_TickDecrementsTimer :
    (turned .tick State.reset).run = .running ∧ (turned .tick State.reset).stopRequested = false ∧
      (turned .tick State.reset).input.turn = .tick := ⟨rfl, rfl, rfl⟩

theorem witness_TicksCountDownToZero : State.reset.run = .running ∧ State.reset.stopRequested = false := ⟨rfl, rfl⟩

theorem witness_StopTakesEffectAtTick :
    (turned .stop State.reset).run = .running ∧ (turned .stop State.reset).input.turn = .stop ∧
      (let s := turned .tick { State.reset with stopRequested := true };
        s.run = .running ∧ s.input.turn = .tick ∧ s.stopRequested = true) := ⟨rfl, rfl, rfl, rfl, rfl⟩

theorem witness_StopRequestUnseenByCycles :
    let s := placed 0x1FFF 0x200 State.reset
    s.input.turn = .cycle ∧ ∃ t, step s = .next t := ⟨rfl, _, rfl⟩

/-- An empty program and one of exactly 3584 bytes. -/
theorem witness_ResetLaunchesProgram :
    (turned (.reset Config.fontData []) State.reset).input.turn = .reset Config.fontData [] ∧
      ([] : List Byte).length ≤ 3584 ∧ (List.replicate 3584 (0xFF : Byte)).length ≤ 3584 :=
  ⟨rfl, by decide, Nat.le_of_eq List.length_replicate⟩

theorem witness_LongProgramRefused :
    let rom := List.replicate 3585 (0xFF : Byte)
    (turned (.reset Config.fontData rom) State.reset).input.turn = .reset Config.fontData rom ∧ 3584 < rom.length :=
  ⟨rfl, Nat.lt_of_lt_of_eq (by decide) List.length_replicate.symm⟩

theorem witness_StepKeepsInvariant :
    let s := placed 0x1FFF 0x200 { State.reset with sp := 1 }
    s.Inv ∧ ∃ t, step s = .next t := ⟨⟨by decide +kernel, by decide, by decide⟩, _, rfl⟩

/-- The state that RET leaves on an empty stack (TF3): Halted, with the record explained. -/
theorem witness_StepKeepsHaltExplained :
    let s := { placed 0x00EE 0x200 State.reset with pc := 0x202, run := .halted ⟨.stackUnderflow, 0x200, some 0x00EE⟩ }
    s.HaltExplained ∧ ∃ t, step s = .next t := by
  refine ⟨fun record h => ?_, _, rfl⟩
  cases h
  exact Or.inr ⟨rfl, by decide, .ret, rfl, rfl, rfl⟩

theorem witness_OnlyDestinationsWritten :
    (∃ t, exec (.ldVxImem 3) State.reset = .next t) ∧ (4 : Reg) ∉ destinations (.ldVxImem 3) ∧
      (14 : Reg) ∉ destinations (.addReg 0 1) := ⟨⟨_, rfl⟩, by decide, by decide⟩

/-- Each clause: an instruction outside the list. -/
theorem witness_OnlyNamedInstructionsWrite :
    (∃ t, exec .cls State.reset = .next t) ∧
      (Instr.mnemonic .cls) ∉ ["LD_I_NNN", "ADD_I_VX", "LD_F_VX", "LD_IMEM_VX", "LD_VX_IMEM"] ∧
      (Instr.mnemonic .cls) ∉ ["CALL", "RET"] ∧ (Instr.mnemonic .cls) ≠ "LD_DT_VX" ∧
      (Instr.mnemonic .cls) ∉ ["LD_B_VX", "LD_IMEM_VX"] ∧ (Instr.mnemonic (.jp 0)) ∉ ["CLS", "DRW"] :=
  ⟨⟨_, rfl⟩, by decide, by decide, by decide, by decide, by decide⟩

theorem witness_OtherInstructionsKeepPc :
    (∃ t, exec .cls State.reset = .next t) ∧
      (Instr.mnemonic .cls) ∉ ["RET", "JP", "CALL", "SE_VX_KK", "SNE_VX_KK", "SE_VX_VY", "SNE_VX_VY", "JP_V0", "SKP", "SKNP",
        "LD_VX_K"] := ⟨⟨_, rfl⟩, by decide⟩

theorem witness_InputReachesFourInstructions :
    (∃ t, exec (.drw 0 1 0) State.reset = .next t) ∧
      (Instr.mnemonic (.drw 0 1 0)) ∉ ["RND", "SKP", "SKNP", "LD_VX_K"] := ⟨⟨_, rfl⟩, by decide⟩

/-- Depth 1 with slot 1 holding something else; and depth 0, where RET emits a `diag.fatal`, with every slot something else. -/
theorem witness_DeadStackSlotsUnseen :
    (let s : State := { State.reset with sp := 1 };
      (∃ t, exec .ret s = .next t) ∧
        ∀ j : Fin 16, j.val < s.sp.val → (s.stack.set 1 0xABC)[j.val] = s.stack[j.val]) ∧
    (∃ t, exec .ret State.reset = .next t) ∧
      ∀ j : Fin 16, j.val < State.reset.sp.val → (Vector.replicate 16 (0xABC : Word))[j.val] = State.reset.stack[j.val] :=
  ⟨⟨⟨_, rfl⟩, by decide⟩, ⟨_, rfl⟩, by decide⟩

/-- TF5: a jump to itself, before a cycle with and without a stop request pending, and before a tick. -/
theorem witness_FinishedProgramStays :
    (placed 0x1200 0x200 State.reset).Finished ∧ (placed 0x1200 0x200 State.reset).input.turn = .cycle ∧
      (let s := placed 0x1200 0x200 { State.reset with stopRequested := true };
        s.Finished ∧ s.input.turn = .cycle) ∧
      (let s := placed 0x1200 0x200 State.reset { quiet with turn := .tick };
        s.Finished ∧ s.input.turn = .tick ∧ s.stopRequested = false) :=
  ⟨⟨rfl, 0x1200, by decide, rfl⟩, rfl, ⟨⟨rfl, 0x1200, by decide, rfl⟩, rfl⟩, ⟨rfl, 0x1200, by decide, rfl⟩, rfl, rfl⟩

end Sys2Proof.Tests
end

/-! SUPPORT. What the execute stage does, said once: an instruction whose cause of R186 holds halts, and every other one
has the effect written here field by field. -/

namespace Sys2Proof.Machine

/-- Where a skip with this condition leaves `pc` (40_flow.md R109). -/
def State.skipTarget (s : State) (c : Bool) : Word := if c then s.pc + 2 else s.pc

theorem State.skipIf_eq_setPc (s : State) (c : Bool) : s.skipIf c = s.setPc (s.skipTarget c) := by
  cases c <;> rfl

/-- The key that register `x` names is down; no key has a number above 15 (R160, R161). -/
def State.keyDown (s : State) (x : Reg) : Bool := (keyNumber (s.reg x)).any s.isPressed

/-- The effect of an instruction no fatal condition stops, as updates of the fields it writes. -/
def effect : Instr → State → State
  | .cls, s => s.setFb Screen.off
  | .ret, s => s.pop
  | .jp nnn, s => s.setPc nnn
  | .call nnn, s => (s.push s.pc).setPc nnn
  | .seImm x kk, s => s.setPc (s.skipTarget (decide (s.reg x = kk)))
  | .sneImm x kk, s => s.setPc (s.skipTarget (decide (s.reg x ≠ kk)))
  | .seReg x y, s => s.setPc (s.skipTarget (decide (s.reg x = s.reg y)))
  | .ldImm x kk, s => s.setReg x kk
  | .addImm x kk, s => s.setReg x (sumByte (s.reg x) kk)
  | .ldReg x y, s => s.setReg x (s.reg y)
  | .or x y, s => s.setResultFlag x (s.reg x ||| s.reg y) 0
  | .and x y, s => s.setResultFlag x (s.reg x &&& s.reg y) 0
  | .xor x y, s => s.setResultFlag x (s.reg x ^^^ s.reg y) 0
  | .addReg x y, s => s.setResultFlag x (sumByte (s.reg x) (s.reg y)) (carry (s.reg x) (s.reg y))
  | .sub x y, s => s.setResultFlag x (differenceByte (s.reg x) (s.reg y)) (notBorrow (s.reg x) (s.reg y))
  | .shr x y, s => s.setResultFlag x (shiftRightByte (s.reg y)) (lowBit (s.reg y))
  | .subn x y, s => s.setResultFlag x (differenceByte (s.reg y) (s.reg x)) (notBorrow (s.reg y) (s.reg x))
  | .shl x y, s => s.setResultFlag x (shiftLeftByte (s.reg y)) (highBit (s.reg y))
  | .sneReg x y, s => s.setPc (s.skipTarget (decide (s.reg x ≠ s.reg y)))
  | .ldI nnn, s => s.setI nnn
  | .jpV0 nnn, s => s.setPc (nnn + zext16 (s.reg 0))
  | .rnd x kk, s => s.setReg x (s.randomByte &&& kk)
  | .drw x y n, s =>
    (s.setFb (drawnCanvas x y n s).fb).setReg Reg.vf (flagByte (drawnCanvas x y n s).collision)
  | .skp x, s => s.setPc (s.skipTarget (s.keyDown x))
  | .sknp x, s => s.setPc (s.skipTarget (!s.keyDown x))
  | .ldVxDt x, s => s.setReg x s.dt
  | .ldVxK x, s =>
    { s with V := s.anyPressed.elim s.V fun k => s.V.set x.val (keyByte k)
             pc := s.anyPressed.elim (s.pc - 2) fun _ => s.pc }
  | .ldDtVx x, s => s.setDt (s.reg x)
  | .addIVx x, s => s.setI (s.I + zext16 (s.reg x))
  | .ldFVx x, s => s.setI (glyphAddress (s.reg x))
  | .ldBVx x, s => s.store s.I.toNat (bcdDigits (s.reg x))
  | .ldImemVx x, s => (s.store s.I.toNat (s.regsUpTo x)).setI (BitVec.ofNat 16 (s.I.toNat + x.val + 1))
  | .ldVxImem x, s =>
    { s with V := loadRegs s.V 0 (Memory.readBytes s.mem s.I.toNat (x.val + 1))
             I := BitVec.ofNat 16 (s.I.toNat + x.val + 1) }

/-! ## `exec` is the fatal condition, or the effect -/

section Guard
variable {p : Prop} [Decidable p] {c d : Cause}

/-- A row of R186 that answers no cause: its condition does not hold. -/
theorem not_of_guard_none (h : (if p then some c else none) = none) : ¬ p := by simpa using h

/-- A row of R186 that answers a cause: its condition holds, and the cause is the row's. -/
theorem of_guard_some (h : (if p then some c else none) = some d) : p ∧ c = d := by simpa using h

end Guard

theorem exec_of_faultCause {i : Instr} {s : State} {c : Cause} (h : faultCause i s = some c) :
    exec i s = .next (s.fatal c i) := by
  cases i with
  | ret => obtain ⟨hp, rfl⟩ := of_guard_some h; exact exec_ret_empty hp
  | call nnn => obtain ⟨hp, rfl⟩ := of_guard_some h; exact exec_call_full nnn hp
  | drw x y n => obtain ⟨hp, rfl⟩ := of_guard_some h; exact exec_drw_beyond x y n hp
  | skp x => obtain ⟨hp, rfl⟩ := of_guard_some h; exact exec_skp_beyond x hp
  | sknp x => obtain ⟨hp, rfl⟩ := of_guard_some h; exact exec_sknp_beyond x hp
  | ldBVx x => obtain ⟨hp, rfl⟩ := of_guard_some h; exact exec_ldBVx_beyond x hp
  | ldImemVx x => obtain ⟨hp, rfl⟩ := of_guard_some h; exact exec_ldImemVx_beyond x hp
  | ldVxImem x => obtain ⟨hp, rfl⟩ := of_guard_some h; exact exec_ldVxImem_beyond x hp
  | _ => cases h

theorem effect_ldVxK_none {s : State} (x : Reg) (h : s.anyPressed = none) : effect (.ldVxK x) s = s.rewind := by
  rw [effect, h]; rfl

theorem effect_ldVxK_some {s : State} (x : Reg) (k : Key) (h : s.anyPressed = some k) :
    effect (.ldVxK x) s = s.setReg x (keyByte k) := by
  rw [effect, h]; rfl

/-- A register value of 15 or less names the key of that number. -/
theorem keyDown_of_le {s : State} {x : Reg} (h : (s.reg x).toNat < 16) :
    s.keyDown x = s.isPressed ⟨(s.reg x).toNat, h⟩ := by
  rw [State.keyDown, keyNumber_eq_some (k := ⟨_, h⟩) rfl]; rfl

theorem exec_of_no_faultCause {i : Instr} {s : State} (h : faultCause i s = none) :
    exec i s = .next (effect i s) := by
  cases i with
  | ret => exact exec_ret_held (not_of_guard_none h)
  | call nnn => exact exec_call_room nnn (not_of_guard_none h)
  | seImm | sneImm | seReg | sneReg => exact congrArg Host.Outcome.next (s.skipIf_eq_setPc _)
  | drw x y n => exact exec_drw_inside x y n fun hn => by have := not_of_guard_none h; omega
  | skp x =>
    have hk : (s.reg x).toNat < 16 := by have := not_of_guard_none h; omega
    rw [exec_skp_key x ⟨_, hk⟩ rfl, State.skipIf_eq_setPc, effect, keyDown_of_le hk]
  | sknp x =>
    have hk : (s.reg x).toNat < 16 := by have := not_of_guard_none h; omega
    rw [exec_sknp_key x ⟨_, hk⟩ rfl, State.skipIf_eq_setPc, effect, keyDown_of_le hk]
  | ldVxK x =>
    cases hk : s.anyPressed with
    | none => rw [exec_ldVxK_none x hk, effect_ldVxK_none x hk]
    | some k => rw [exec_ldVxK_some x k hk, effect_ldVxK_some x k hk]
  | ldBVx x => exact exec_ldBVx_inside x (Nat.not_lt.1 (not_of_guard_none h))
  | ldImemVx x => exact exec_ldImemVx_inside x (Nat.not_lt.1 (not_of_guard_none h))
  | ldVxImem x => exact exec_ldVxImem_inside x (Nat.not_lt.1 (not_of_guard_none h))
  | _ => rfl

/-- The outcomes of the execute stage. -/
inductive ExecResult (i : Instr) (s : State) : State → Prop where
  | fatal (c : Cause) (h : faultCause i s = some c) : ExecResult i s (s.fatal c i)
  | effect (h : faultCause i s = none) : ExecResult i s (effect i s)

theorem exec_cases {i : Instr} {s t : State} (h : exec i s = .next t) : ExecResult i s t := by
  cases hc : faultCause i s with
  | some c => cases (exec_of_faultCause hc).symm.trans h; exact .fatal c hc
  | none => cases (exec_of_no_faultCause hc).symm.trans h; exact .effect hc

/-- What decides a fatal condition: the depth, `I` and the registers (R186). -/
theorem faultCause_congr (i : Instr) {s t : State} (hsp : t.sp = s.sp) (hI : t.I = s.I) (hV : t.V = s.V) :
    faultCause i t = faultCause i s := by
  cases i with
  | ret | call => simp only [faultCause, hsp]
  | skp x | sknp x =>
    have hreg : t.reg x = s.reg x := by simp only [State.reg, hV]
    simp only [faultCause, hreg]
  | drw | ldBVx | ldImemVx | ldVxImem => simp only [faultCause, hI]
  | _ => rfl

/-! ## What an effect leaves unchanged, piece by piece -/

theorem effect_I {i : Instr} (s : State)
    (h : i.mnemonic ∉ ["LD_I_NNN", "ADD_I_VX", "LD_F_VX", "LD_IMEM_VX", "LD_VX_IMEM"]) : (effect i s).I = s.I := by
  cases i with
  | ldI | addIVx | ldFVx | ldImemVx | ldVxImem => simp [Instr.mnemonic] at h
  | _ => rfl

theorem effect_callStack {i : Instr} (s : State) (h : i.mnemonic ∉ ["CALL", "RET"]) :
    (effect i s).sp = s.sp ∧ (effect i s).stack = s.stack := by
  cases i with
  | call | ret => simp [Instr.mnemonic] at h
  | _ => exact ⟨rfl, rfl⟩

theorem effect_dt {i : Instr} (s : State) (h : i.mnemonic ≠ "LD_DT_VX") : (effect i s).dt = s.dt := by
  cases i with
  | ldDtVx => simp [Instr.mnemonic] at h
  | _ => rfl

theorem effect_mem {i : Instr} (s : State) (h : i.mnemonic ∉ ["LD_B_VX", "LD_IMEM_VX"]) :
    (effect i s).mem = s.mem := by
  cases i with
  | ldBVx | ldImemVx => simp [Instr.mnemonic] at h
  | _ => rfl

theorem effect_fb {i : Instr} (s : State) (h : i.mnemonic ∉ ["CLS", "DRW"]) : (effect i s).fb = s.fb := by
  cases i with
  | cls | drw => simp [Instr.mnemonic] at h
  | _ => rfl

theorem effect_pc {i : Instr} (s : State)
    (h : i.mnemonic ∉ ["RET", "JP", "CALL", "SE_VX_KK", "SNE_VX_KK", "SE_VX_VY", "SNE_VX_VY", "JP_V0", "SKP", "SKNP",
      "LD_VX_K"]) : (effect i s).pc = s.pc := by
  cases i with
  | ret | jp | call | seImm | sneImm | seReg | sneReg | jpV0 | skp | sknp | ldVxK => simp [Instr.mnemonic] at h
  | _ => rfl

@[simp] theorem effect_run (i : Instr) (s : State) : (effect i s).run = s.run := by cases i <;> rfl
@[simp] theorem effect_diag (i : Instr) (s : State) : (effect i s).diag = s.diag := by cases i <;> rfl
@[simp] theorem effect_stopRequested (i : Instr) (s : State) : (effect i s).stopRequested = s.stopRequested := by
  cases i <;> rfl
@[simp] theorem effect_inputs (i : Instr) (s : State) : (effect i s).inputs = s.inputs := by cases i <;> rfl
@[simp] theorem effect_inputCount (i : Instr) (s : State) : (effect i s).inputCount = s.inputCount := by
  cases i <;> rfl

/-- Registers outside the "writes" column of R24 keep what they held. -/
theorem effect_reg (i : Instr) (s : State) {r : Reg} (h : r ∉ destinations i) : (effect i s).reg r = s.reg r := by
  cases i with
  | ldImm x | addImm x | ldReg x | rnd x | ldVxDt x => exact s.reg_setReg_ne _ (by simpa [destinations] using h)
  | or x | and x | xor x | addReg x | sub x | shr x | subn x | shl x =>
    exact (s.setResultFlag_onlyRegs x _ _).2.1 r h
  | drw => exact (s.setFb _).reg_setReg_ne _ (by simpa [destinations] using h)
  | ldVxK x =>
    have hx : r ≠ x := by simpa [destinations] using h
    cases hk : s.anyPressed with
    | none => rw [effect_ldVxK_none x hk]; rfl
    | some k => rw [effect_ldVxK_some x k hk, s.reg_setReg_ne _ hx]
  | ldVxImem x =>
    have hx : x.val < r.val := by simpa [destinations] using h
    rw [State.reg, effect, loadRegs_getElem, dif_neg (by rw [Memory.readBytes_length]; omega), State.reg]
  | _ => rfl

end Sys2Proof.Machine

/-! SUPPORT. What the decoder answers: a well-formed instruction whose encoding is the word decoded (30_encoding.md R82,
R85, R86). -/

namespace Sys2Proof

/-- The format lemmas with the family named by its number, as the dispatch of R85 tests it. -/
theorem encodeNnn_of_fam {op : Word} {fam : BitVec 4} (hf : (fieldFam op).toNat = fam.toNat) :
    encodeNnn fam (fieldNnn op) = op := by
  rw [← BitVec.eq_of_toNat_eq hf, encodeNnn_fields]

theorem encodeXkk_of_fam {op : Word} {fam : BitVec 4} (hf : (fieldFam op).toNat = fam.toNat) :
    encodeXkk fam (fieldX op) (fieldKk op) = op := by
  rw [← BitVec.eq_of_toNat_eq hf, encodeXkk_fields]

theorem encodeXkk_of_fam_kk {op : Word} {fam : BitVec 4} {kk : Byte} (hf : (fieldFam op).toNat = fam.toNat)
    (hk : (fieldKk op).toNat = kk.toNat) : encodeXkk fam (fieldX op) kk = op := by
  rw [← BitVec.eq_of_toNat_eq hk, encodeXkk_of_fam hf]

theorem encodeXyn_of_fam_n {op : Word} {fam n : BitVec 4} (hf : (fieldFam op).toNat = fam.toNat)
    (hn : (fieldN op).toNat = n.toNat) : encodeXyn fam (fieldX op) (fieldY op) n = op := by
  rw [← BitVec.eq_of_toNat_eq hf, ← BitVec.eq_of_toNat_eq hn, encodeXyn_fields]

theorem decodeFam0_sound {op : Word} {i : Instr} (h : decodeFam0 op = some i) :
    i.wellFormed = true ∧ encode i = op := by
  unfold decodeFam0 at h
  split at h
  · next hop => cases h; exact ⟨rfl, hop.symm⟩
  · split at h
    · next hop => cases h; exact ⟨rfl, hop.symm⟩
    · cases h

theorem decodeFam8_sound {op : Word} {i : Instr} (hf : (fieldFam op).toNat = 8) (h : decodeFam8 op = some i) :
    i.wellFormed = true ∧ encode i = op := by
  unfold decodeFam8 at h
  split at h
  case h_10 => cases h
  all_goals
    next hn => cases h; exact ⟨rfl, encodeXyn_of_fam_n hf hn⟩

theorem decodeFamE_sound {op : Word} {i : Instr} (hf : (fieldFam op).toNat = 14) (h : decodeFamE op = some i) :
    i.wellFormed = true ∧ encode i = op := by
  unfold decodeFamE at h
  split at h
  case h_3 => cases h
  all_goals
    next hk => cases h; exact ⟨rfl, encodeXkk_of_fam_kk hf hk⟩

theorem decodeFamF_sound {op : Word} {i : Instr} (hf : (fieldFam op).toNat = 15) (h : decodeFamF op = some i) :
    i.wellFormed = true ∧ encode i = op := by
  unfold decodeFamF at h
  split at h
  case h_9 => cases h
  all_goals
    next hk => cases h; exact ⟨rfl, encodeXkk_of_fam_kk hf hk⟩

/-- The dispatch family by family: every row it answers is well-formed and encodes to the word. -/
theorem decodeRow_sound {op : Word} {i : Instr} (h : decodeRow op = some i) :
    i.wellFormed = true ∧ encode i = op := by
  unfold decodeRow at h
  split at h
  · exact decodeFam0_sound h
  · next hf => cases h; exact ⟨addressOk_fieldNnn op, encodeNnn_of_fam hf⟩
  · next hf => cases h; exact ⟨addressOk_fieldNnn op, encodeNnn_of_fam hf⟩
  · next hf => cases h; exact ⟨rfl, encodeXkk_of_fam hf⟩
  · next hf => cases h; exact ⟨rfl, encodeXkk_of_fam hf⟩
  · next hf =>
    split at h
    · next hn => cases h; exact ⟨rfl, encodeXyn_of_fam_n hf (congrArg BitVec.toNat hn)⟩
    · cases h
  · next hf => cases h; exact ⟨rfl, encodeXkk_of_fam hf⟩
  · next hf => cases h; exact ⟨rfl, encodeXkk_of_fam hf⟩
  · next hf => exact decodeFam8_sound hf h
  · next hf =>
    split at h
    · next hn => cases h; exact ⟨rfl, encodeXyn_of_fam_n hf (congrArg BitVec.toNat hn)⟩
    · cases h
  · next hf => cases h; exact ⟨addressOk_fieldNnn op, encodeNnn_of_fam hf⟩
  · next hf => cases h; exact ⟨addressOk_fieldNnn op, encodeNnn_of_fam hf⟩
  · next hf => cases h; exact ⟨rfl, encodeXkk_of_fam hf⟩
  · next hf => cases h; exact ⟨countOk_fieldN op, encodeXyn_of_fam_n hf (by rw [BitVec.ofNat_toNat, BitVec.setWidth_eq])⟩
  · next hf => exact decodeFamE_sound hf h
  · next hf => exact decodeFamF_sound hf h
  · cases h

theorem decode_sound {op : Word} {i : Instr} (h : decode op = .ok i) : i.wellFormed = true ∧ encode i = op :=
  decodeRow_sound ((Machine.decode_eq_ok_iff op i).1 h)

/-- A well-formed address operand is at most 0xFFF. -/
theorem toNat_le_of_addressOk {nnn : Word} (h : addressOk nnn = true) : nnn.toNat ≤ 0xFFF := by
  have : nnn.toNat < 0x1000 := of_decide_eq_true h
  omega

end Sys2Proof

/-! SUPPORT. The two invariants of the machine, step by step, with the statements O51 to O54 they settle. -/

namespace Sys2Proof.Machine

/-! ## The turns that execute no instruction -/

/-- A fetch that answers reads two bytes that exist (R60). -/
theorem State.fetch_eq_some {s : State} {op : Word} (h : s.fetch = some op) :
    s.pc.toNat + 1 ≤ 0xFFF ∧ op = wordOfBytes (s.byteAt s.pc.toNat) (s.byteAt (s.pc.toNat + 1)) := by
  rw [State.fetch_eq] at h
  split at h
  · next hp => cases h; exact ⟨hp, rfl⟩
  · cases h

/-- After a fetch, the advance does not wrap. -/
theorem State.advance_pc_toNat {s : State} (h : s.pc.toNat + 1 ≤ 0xFFF) : s.advance.pc.toNat = s.pc.toNat + 2 := by
  rw [State.advance_pc, BitVec.toNat_add, show (2 : Word).toNat = 2 from rfl]
  omega

/-- A tick writes the timer and the run state only (R193, R201). -/
theorem State.tick_frame (s : State) : ∃ dt run, s.tick = { s with dt := dt, run := run } := by
  by_cases h : s.run = .running
  · by_cases hs : s.stopRequested = true
    · exact ⟨s.dt, .stopped, State.tick_stopping h hs⟩
    · exact ⟨_, s.run, (State.tick_running h (Bool.eq_false_of_not_eq_true hs)).trans s.decrementTimer_spec.2⟩
  · exact ⟨s.dt, s.run, State.tick_ended h⟩

/-- A stop request writes the pending bit only (R201). -/
theorem State.requestStop_frame (s : State) :
    s.requestStop = { s with stopRequested := s.requestStop.stopRequested } := by
  unfold State.requestStop
  split <;> rfl

/-! ## The invariant of R28, R32 and R102 -/

/-- The invariant speaks of memory, `pc` and the call stack only. -/
theorem State.Inv.congr {s t : State} (h : s.Inv) (hmem : t.mem = s.mem) (hpc : t.pc = s.pc)
    (hstack : t.stack = s.stack) (hsp : t.sp = s.sp) : t.Inv where
  memory := by rw [hmem]; exact h.memory
  counter := by rw [hpc]; exact h.counter
  returns := by rw [hstack, hsp]; exact h.returns

theorem State.Inv.consumeInput {s : State} (h : s.Inv) : s.consumeInput.Inv := h.congr rfl rfl rfl rfl

theorem State.Inv.tick {s : State} (h : s.Inv) : s.tick.Inv := by
  obtain ⟨dt, run, ht⟩ := s.tick_frame
  rw [ht]; exact h.congr rfl rfl rfl rfl

theorem State.Inv.requestStop {s : State} (h : s.Inv) : s.requestStop.Inv := by
  rw [State.requestStop_frame]; exact h.congr rfl rfl rfl rfl

theorem State.launch_inv (s : State) (font : Vector Byte 80) {rom : List Byte} (h : rom.length ≤ Config.maxRom) :
    (s.launch font rom).Inv where
  memory := Memory.wf_launch font rom h
  counter := show State.reset.pc.toNat ≤ 0x10FE by decide
  returns _ hj := absurd hj (Nat.not_lt_zero _)

/-- Memory stays canonical: the stores of LD B and LD [I],Vx lie inside memory once no cause of R186 holds (R60). -/
theorem effect_wf {i : Instr} {s : State} (hc : faultCause i s = none) (hm : Memory.wf s.mem = true) :
    Memory.wf (effect i s).mem = true := by
  cases i with
  | ldBVx x =>
    have hin := not_of_guard_none hc
    exact Memory.wf_writeBytes (by simp only [bcdDigits, List.length, Config.memSize]; omega) hm
  | ldImemVx x =>
    have hin := not_of_guard_none hc
    exact Memory.wf_writeBytes (by rw [State.regsUpTo_length, Config.memSize]; omega) hm
  | _ => exact hm

/-- A skip moves `pc` by 2 at most. -/
theorem State.skipTarget_le (s : State) (c : Bool) : (s.skipTarget c).toNat ≤ s.pc.toNat + 2 := by
  cases c with
  | false => exact Nat.le_add_right _ _
  | true => exact (BitVec.toNat_add _ _).trans_le (Nat.mod_le _ _)

/-- The newest return address of a stack that holds one. -/
theorem State.Inv.top_le {s : State} (h : s.Inv) (hsp : s.sp.val ≠ 0) : s.top.toNat ≤ 0x1000 :=
  h.returns ⟨s.sp.val - 1, by omega⟩ (by simp only; omega)

/-- The bounds on `pc` by the instruction that moves it: a jump to a 12-bit address, JP V0 up to 0xFFF + 0xFF (D3), RET to a
live return address, a skip or the wait of LD Vx, K from the advanced `pc`. -/
theorem effect_pc_le {i : Instr} {s : State} (hi : i.wellFormed = true) (hc : faultCause i s = none) (h : s.Inv)
    (hlow : 2 ≤ s.pc.toNat) (hhigh : s.pc.toNat ≤ 0x1000) : (effect i s).pc.toNat ≤ 0x10FE := by
  cases i with
  | ret => exact (h.top_le (not_of_guard_none hc)).trans (by decide)
  | jp nnn | call nnn => exact (toNat_le_of_addressOk hi).trans (by decide)
  | jpV0 nnn =>
    have hn : nnn.toNat ≤ 0xFFF := toNat_le_of_addressOk hi
    have hv : (zext16 (s.reg 0)).toNat ≤ 0xFF := by
      rw [zext16, BitVec.toNat_setWidth]; omega
    calc (nnn + zext16 (s.reg 0)).toNat ≤ nnn.toNat + (zext16 (s.reg 0)).toNat :=
          (BitVec.toNat_add _ _).trans_le (Nat.mod_le _ _)
      _ ≤ 0x10FE := by omega
  | seImm | sneImm | seReg | sneReg | skp | sknp => exact (s.skipTarget_le _).trans (by omega)
  | ldVxK x =>
    cases hk : s.anyPressed with
    | none =>
      rw [effect_ldVxK_none x hk, State.rewind_pc, BitVec.toNat_sub, show (2 : Word).toNat = 2 from rfl]
      omega
    | some k => rw [effect_ldVxK_some x k hk, State.setReg_pc]; omega
  | _ => exact hhigh.trans (by decide)

/-- Live return addresses: CALL adds the advanced `pc`, RET takes one away (D4). -/
theorem effect_returns {i : Instr} {s : State} (hc : faultCause i s = none) (h : s.Inv) (hhigh : s.pc.toNat ≤ 0x1000)
    (j : Fin 16) (hj : j.val < (effect i s).sp.val) : ((effect i s).stack[j.val]).toNat ≤ 0x1000 := by
  cases i with
  | ret =>
    have hlt : j.val < s.sp.val - 1 := hj
    exact h.returns j (by omega)
  | call nnn =>
    have hroom : s.sp.val < 16 := by have := not_of_guard_none hc; omega
    obtain ⟨hsp, hstack⟩ := s.push_spec s.pc hroom
    have hlt : j.val < s.sp.val + 1 := hsp ▸ hj
    refine (congrArg BitVec.toNat (hstack j)).trans_le ?_
    split
    · exact hhigh
    · exact h.returns j (by omega)
  | _ => exact h.returns j hj

/-- The execute stage of a fetched instruction keeps the invariant. -/
theorem exec_inv {i : Instr} {s t : State} (hi : i.wellFormed = true) (h : s.Inv) (hlow : 2 ≤ s.pc.toNat)
    (hhigh : s.pc.toNat ≤ 0x1000) (he : exec i s = .next t) : t.Inv := by
  cases exec_cases he with
  | fatal c hc => exact h.congr rfl rfl rfl rfl
  | effect hc => exact ⟨effect_wf hc h.memory, effect_pc_le hi hc h hlow hhigh, effect_returns hc h hhigh⟩

/-- The advance after a fetch keeps the invariant. -/
theorem State.Inv.advance {s : State} (h : s.Inv) (hp : s.pc.toNat + 1 ≤ 0xFFF) : s.advance.Inv where
  memory := h.memory
  counter := by rw [State.advance_pc_toNat hp]; omega
  returns := h.returns

theorem CycleResult.inv {s t : State} (h : s.Inv) (hc : CycleResult s t) : t.Inv := by
  cases hc with
  | ended => exact h
  | fetchFault => exact h.congr rfl rfl rfl rfl
  | unknown op _ hf => exact (h.advance (State.fetch_eq_some hf).1).congr rfl rfl rfl rfl
  | instruction op i _ _ hf hd he =>
    have hp := (State.fetch_eq_some hf).1
    have hpc := State.advance_pc_toNat hp
    exact exec_inv (decode_sound hd).1 (h.advance hp) (by omega) (by omega) he

/-- Settles O51: each turn of a step keeps the invariant, a cycle by the cases of its fetch and execute stage. -/
theorem stepKeepsInvariant : Obligations.StepKeepsInvariant := by
  intro s t h hs
  cases step_cases hs with
  | cycle u _ hc => exact (hc.inv h).consumeInput
  | tick => exact h.tick.consumeInput
  | stop => exact h.requestStop.consumeInput
  | reset font rom _ hr => exact (s.launch_inv font hr).consumeInput

/-- Settles O52: memory is empty, `pc` is 0x200 and no return address is live. -/
theorem resetMeetsInvariant : Obligations.ResetMeetsInvariant where
  memory := Memory.wf_reset
  counter := by decide
  returns _ hj := absurd hj (Nat.not_lt_zero _)

/-! ## Halted states are explained by their records -/

theorem State.haltExplained_of_not_halted {s : State} (h : ∀ record, s.run ≠ .halted record) : s.HaltExplained :=
  fun record hr => absurd hr (h record)

theorem State.haltExplained_of_running {s : State} (h : s.run = .running) : s.HaltExplained :=
  State.haltExplained_of_not_halted fun _ hr => nomatch h.symm.trans hr

theorem State.HaltExplained.consumeInput {s : State} (h : s.HaltExplained) : s.consumeInput.HaltExplained := by
  intro record hr
  have hfault : ∀ i, faultCause i s.consumeInput = faultCause i s := fun i => faultCause_congr i rfl rfl rfl
  simp only [hfault]
  exact h record hr

theorem State.HaltExplained.tick {s : State} (h : s.HaltExplained) : s.tick.HaltExplained := by
  by_cases hr : s.run = .running
  · cases hs : s.stopRequested with
    | true =>
      rw [State.tick_stopping hr hs]
      exact State.haltExplained_of_not_halted nofun
    | false =>
      rw [State.tick_running hr hs, s.decrementTimer_spec.2]
      exact State.haltExplained_of_running hr
  · rwa [State.tick_ended hr]

theorem State.HaltExplained.requestStop {s : State} (h : s.HaltExplained) : s.requestStop.HaltExplained := by
  by_cases hr : s.run = .running
  · rw [State.requestStop_frame]
    exact State.haltExplained_of_running hr
  · rwa [State.requestStop_ended hr]

/-- A fetch fault is its own explanation: `pc` is the record's address and nothing can be fetched there (R183). -/
theorem State.fetchFault_haltExplained {s : State} (hf : s.fetch = none) : s.fetchFault.HaltExplained := by
  intro record hr
  cases hr
  have hp : ¬ s.pc.toNat + 1 ≤ 0xFFF := fun hp => by simp [State.fetch_eq, hp] at hf
  exact .inl ⟨rfl, rfl, rfl, by simp only [State.fetchFault, State.raise_pc]; omega⟩

/-- A fatal condition of a fetched instruction is explained: the record's address is where the word was fetched, its word is
that word (log 14), and since nothing else changed the cause still holds (R188). -/
theorem State.fatal_haltExplained {s : State} {op : Word} {i : Instr} {c : Cause} (hf : s.fetch = some op)
    (hd : decode op = .ok i) (hc : faultCause i s.advance = some c) : (s.advance.fatal c i).HaltExplained := by
  intro record hr
  cases hr
  obtain ⟨hp, hop⟩ := State.fetch_eq_some hf
  have haddr : s.advance.pc - 2 = s.pc := by rw [State.advance_pc, BitVec.add_sub_cancel]
  refine .inr ?_
  simp only [haddr]
  refine ⟨rfl, by omega, i, hop ▸ hd, ?_, ?_⟩
  · exact congrArg some ((decode_sound hd).2.trans hop)
  · exact (faultCause_congr i rfl rfl rfl).trans hc

theorem CycleResult.haltExplained {s t : State} (h : s.HaltExplained) (hc : CycleResult s t) : t.HaltExplained := by
  cases hc with
  | ended => exact h
  | fetchFault _ hf => exact State.fetchFault_haltExplained hf
  | unknown _ hr => exact State.haltExplained_of_running hr
  | instruction op i _ hr hf hd he =>
    cases exec_cases he with
    | fatal c hc => exact State.fatal_haltExplained hf hd hc
    | effect => exact State.haltExplained_of_running ((effect_run i _).trans hr)

/-- Settles O53: a run halts in a cycle only, by a fetch fault or a fatal condition, and each is explained when it is raised. -/
theorem stepKeepsHaltExplained : Obligations.StepKeepsHaltExplained := by
  intro s t h hs
  cases step_cases hs with
  | cycle u _ hc => exact (hc.haltExplained h).consumeInput
  | tick => exact h.tick.consumeInput
  | stop => exact h.requestStop.consumeInput
  | reset => exact State.haltExplained_of_running rfl

/-- Settles O54: the state after reset is Running. -/
theorem resetMeetsHaltExplained : Obligations.ResetMeetsHaltExplained := State.haltExplained_of_running rfl

end Sys2Proof.Machine

/-! SUPPORT. What each instruction writes and looks at, and the launch, with the statements O55 to O59, O48 and O50. -/

namespace Sys2Proof.Machine

/-! ## Writes by instruction -/

/-- Settles O55: a fatal condition writes no register, an effect those of its "writes" column. -/
theorem onlyDestinationsWritten : Obligations.OnlyDestinationsWritten := by
  intro i s t r he hr
  cases exec_cases he with
  | fatal => rfl
  | effect => exact effect_reg i s hr

/-- Settles O56: a fatal condition writes the run state and the diagnostics only, an effect each piece by the instructions
named for it. -/
theorem onlyNamedInstructionsWrite : Obligations.OnlyNamedInstructionsWrite := by
  intro i s t he
  cases exec_cases he with
  | fatal => exact ⟨fun _ => rfl, fun _ => ⟨rfl, rfl⟩, fun _ => rfl, fun _ => rfl, fun _ => rfl, rfl, rfl, rfl⟩
  | effect =>
    exact ⟨effect_I s, effect_callStack s, effect_dt s, effect_mem s, effect_fb s, effect_stopRequested i s,
      effect_inputs i s, effect_inputCount i s⟩

/-- Settles O57: a fatal condition keeps `pc`, and so does every effect outside the list. -/
theorem otherInstructionsKeepPc : Obligations.OtherInstructionsKeepPc := by
  intro i s t he hi
  cases exec_cases he with
  | fatal => rfl
  | effect => exact effect_pc s hi

/-! ## Noninterference -/

/-- An effect outside the four instructions of R36 does not look at the environment's input. -/
theorem effect_withInput {i : Instr} (s : State) (inputs : List Input) (count : Nat)
    (h : i.mnemonic ∉ ["RND", "SKP", "SKNP", "LD_VX_K"]) :
    effect i { s with inputs := inputs, inputCount := count } =
      { effect i s with inputs := inputs, inputCount := count } := by
  cases i with
  | rnd | skp | sknp | ldVxK => simp [Instr.mnemonic] at h
  | _ => rfl

/-- Settles O58: neither the causes of R186 nor the effects outside the four instructions look at the input. -/
theorem inputReachesFourInstructions : Obligations.InputReachesFourInstructions := by
  intro i s t inputs count hi he
  have hfault : faultCause i { s with inputs := inputs, inputCount := count } = faultCause i s :=
    faultCause_congr i rfl rfl rfl
  cases exec_cases he with
  | fatal c hc => exact exec_of_faultCause (hfault.trans hc)
  | effect hc => rw [exec_of_no_faultCause (hfault.trans hc), effect_withInput s inputs count hi]

/-- An effect under other dead call-stack slots: CALL writes its own slot over them, RET reads a live slot, no other
instruction looks at the stack (R29). -/
theorem effect_withStack {i : Instr} {s : State} {stack : Vector Word 16} (hc : faultCause i s = none)
    (h : ∀ j : Fin 16, j.val < s.sp.val → stack[j.val] = s.stack[j.val]) :
    ∃ slots : Vector Word 16, effect i { s with stack := stack } = { effect i s with stack := slots } ∧
      ∀ j : Fin 16, j.val < (effect i s).sp.val → slots[j.val] = (effect i s).stack[j.val] := by
  cases i with
  | ret =>
    have hsp : s.sp.val ≠ 0 := not_of_guard_none hc
    have htop : ({ s with stack := stack } : State).top = s.top :=
      h ⟨s.sp.val - 1, by omega⟩ (by simp only; omega)
    refine ⟨stack, ?_, fun j hj => h j (Nat.lt_of_lt_of_le hj (Nat.sub_le _ _))⟩
    simp only [effect, State.pop, htop]
  | call nnn =>
    have hroom : s.sp.val < 16 := by have := not_of_guard_none hc; omega
    obtain ⟨hsp, hstack⟩ := s.push_spec s.pc hroom
    have hslots : ∀ j : Fin 16, (stack.setIfInBounds s.sp.val s.pc)[j.val] =
        if j.val = s.sp.val then s.pc else stack[j.val] := (State.push_spec { s with stack := stack } s.pc hroom).2
    refine ⟨_, rfl, fun j hj => ?_⟩
    have hlt : j.val < s.sp.val + 1 := hsp ▸ hj
    refine (hslots j).trans (Eq.trans ?_ (hstack j).symm)
    split
    · rfl
    · next hne => exact h j (by omega)
  | _ => exact ⟨stack, rfl, h⟩

/-- Settles O59: a fatal condition copies the slots into its own `diag.fatal` only, and an effect agrees on the live slots. -/
theorem deadStackSlotsUnseen : Obligations.DeadStackSlotsUnseen := by
  intro i s t stack he h
  have hfault : faultCause i { s with stack := stack } = faultCause i s := faultCause_congr i rfl rfl rfl
  cases exec_cases he with
  | fatal c hc =>
    exact ⟨_, exec_of_faultCause (hfault.trans hc), rfl, h, .inr ⟨_, s.snapshot, rfl, rfl⟩⟩
  | effect hc =>
    obtain ⟨slots, heq, hlive⟩ := effect_withStack hc h
    refine ⟨_, exec_of_no_faultCause (hfault.trans hc), ?_⟩
    rw [heq]
    exact ⟨rfl, hlive, .inl rfl⟩

/-! ## The launch -/

/-- The program's bytes lie at LOAD_BASE in the launch image (R222). -/
theorem Memory.read_launch_program (font : Vector Byte 80) (rom : List Byte) (j : Fin rom.length) :
    Memory.read (Memory.launch font rom) (0x200 + j.val) = rom[j.val] := by
  rw [Memory.launch, Memory.read_writeBytes, dif_pos (by simp only [Config.loadBase]; omega)]
  simp [Config.loadBase]

/-- Outside the program the launch image is the font over unlisted memory (R222). -/
theorem Memory.read_launch_outside (font : Vector Byte 80) (rom : List Byte) {a : Nat}
    (h : a < 0x200 ∨ 0x200 + rom.length ≤ a) : Memory.read (Memory.launch font rom) a =
      Memory.read (Memory.writeBytes [] Config.fontBase font.toList) a := by
  rw [Memory.launch, Memory.read_writeBytes, dif_neg (by simp only [Config.loadBase]; omega)]

theorem Memory.read_font (font : Vector Byte 80) (j : Fin 80) :
    Memory.read (Memory.writeBytes [] Config.fontBase font.toList) (0x050 + j.val) = font[j.val] := by
  rw [Memory.read_writeBytes, dif_pos (by simp only [Config.fontBase, Vector.length_toList]; omega)]
  simp [Config.fontBase]

/-- Outside the font, unlisted memory is MEM_FILL. -/
theorem Memory.unlisted_outside_font {a : Nat} (h : a < 0x050 ∨ 0x0A0 ≤ a) : Memory.unlisted a = 0 := by
  unfold Memory.unlisted
  split
  · next hb =>
    have hout : 80 ≤ a - Config.fontBase := by simp only [Config.fontBase] at hb ⊢; omega
    rw [Vector.getElem?_eq_none hout]; rfl
  · rfl

theorem Memory.unlisted_font (j : Fin 80) : Memory.unlisted (0x050 + j.val) = Config.fontData[j.val] := by
  simp [Memory.unlisted, Config.fontBase]

theorem Memory.read_outside_font (font : Vector Byte 80) {a : Nat} (h : a < 0x050 ∨ 0x0A0 ≤ a) :
    Memory.read (Memory.writeBytes [] Config.fontBase font.toList) a = Memory.unlisted a := by
  rw [Memory.read_writeBytes, dif_neg (by simp only [Config.fontBase, Vector.length_toList]; omega), Memory.read]

theorem resetTurn_of_fits (s : State) (font : Vector Byte 80) {rom : List Byte} (h : rom.length ≤ Config.maxRom) :
    resetTurn font rom s = .next (s.launch font rom) := if_pos h

/-- Settles O48: the step is the launch, whose memory is read piece by piece. -/
theorem resetLaunchesProgram : Obligations.ResetLaunchesProgram := by
  intro s font rom hi hrom
  have hstep : step s = .next (s.launch font rom).consumeInput := by
    rw [step_reset hi, resetTurn_of_fits s font hrom, consumed]
  refine ⟨_, hstep, fun r => ?_, rfl, rfl, rfl, fun j => ?_, rfl, rfl, Screen.pixel_off, rfl,
    Memory.wf_launch font rom hrom, fun j => ?_, Memory.read_launch_program font rom, fun a _ hfont hprogram => ?_⟩
  · exact Vector.getElem_replicate r.isLt
  · exact Vector.getElem_replicate j.isLt
  · exact (Memory.read_launch_outside font rom (by omega)).trans (Memory.read_font font j)
  · calc Memory.read (Memory.launch font rom) a
        = Memory.read (Memory.writeBytes [] Config.fontBase font.toList) a := Memory.read_launch_outside font rom hprogram
      _ = Memory.unlisted a := Memory.read_outside_font font hfont
      _ = 0 := Memory.unlisted_outside_font hfont

/-- The launch of an empty program with the default font reads as unlisted memory everywhere. -/
theorem Memory.read_launch_default (a : Nat) : Memory.read (Memory.launch Config.fontData []) a = Memory.unlisted a := by
  rw [Memory.read_launch_outside _ _ (by simp only [List.length_nil]; omega)]
  by_cases h : a < 0x050 ∨ 0x0A0 ≤ a
  · exact Memory.read_outside_font _ h
  · obtain ⟨j, rfl⟩ : ∃ j : Fin 80, a = 0x050 + j.val := ⟨⟨a - 0x050, by omega⟩, by simp only; omega⟩
    rw [Memory.read_font, Memory.unlisted_font]

/-- Settles O50: the fields by definition, memory by reading the launch image. -/
theorem resetIsEmptyLaunch : Obligations.ResetIsEmptyLaunch :=
  ⟨Memory.read_launch_default, rfl, rfl, rfl, fun r => Vector.getElem_replicate r.isLt, rfl, rfl, rfl⟩

end Sys2Proof.Machine

/-! SUPPORT. The decoder reads back what the encoder writes, word by word and in a byte stream (20_memory.md R57,
30_encoding.md R80, R82, R86), with the statement O7 it settles. -/

namespace Sys2Proof

/-- The dispatch of R85 format by format: the family, then the family's own selector, then the operands. -/
theorem decodeRow_encode {i : Instr} (h : i.wellFormed = true) : decodeRow (encode i) = some i := by
  cases i with
  | cls | ret => rfl
  | jp | call | ldI | jpV0 => simp [encode, decodeRow, fieldNnn_encodeNnn _ _ h]
  | seImm | sneImm | seReg | ldImm | addImm | sneReg | rnd => simp [encode, decodeRow]
  | ldReg | or | and | xor | addReg | sub | shr | subn | shl => simp [encode, decodeRow, decodeFam8]
  | drw x y n =>
    have hn : n < 16 := of_decide_eq_true h
    simp [encode, decodeRow, Nat.mod_eq_of_lt hn]
  | skp | sknp => simp [encode, decodeRow, decodeFamE]
  | ldVxDt | ldVxK | ldDtVx | addIVx | ldFVx | ldBVx | ldImemVx | ldVxImem => simp [encode, decodeRow, decodeFamF]

theorem decode_encode {i : Instr} (h : i.wellFormed = true) : decode (encode i) = .ok i :=
  (Machine.decode_eq_ok_iff _ i).2 (decodeRow_encode h)

/-- A stream that begins with a word's two bytes, high byte first, is decoded as that word (R57, R80). -/
theorem decodeBytes_of_decode {op : Word} {i : Instr} (h : decode op = .ok i) (rest : List Byte) :
    decodeBytes (highByte op :: lowByte op :: rest) = .ok (i, rest) := by
  rw [decodeBytes, wordOfBytes_bytes, h]

/-- Settles O7: the two bytes make the encoded word again, and the decoder reads it back. -/
theorem bytesDecodeInStream : Obligations.BytesDecodeInStream :=
  ⟨fun _ rest h => decodeBytes_of_decode (decode_encode h) rest, rfl, fun _ => rfl⟩

/-- The first of two bytes in memory order weighs 256 (R57). -/
theorem wordOfBytes_toNat (high low : Byte) : (wordOfBytes high low).toNat = 256 * high.toNat + low.toNat := by
  rw [wordOfBytes, BitVec.toNat_append, Nat.shiftLeft_eq, Nat.mul_comm, ← Nat.two_pow_add_eq_or_of_lt low.isLt]

end Sys2Proof

/-! SUPPORT. What a fetch reads, also from bytes just stored (20_memory.md R57, R64), with the statements O9 and O34 it
settles. -/

namespace Sys2Proof.Machine

/-- A fetch whose two bytes exist reads them, the one at `pc` first (R57, R60). -/
theorem State.fetch_inside {s : State} (h : s.pc.toNat + 1 ≤ 0xFFF) :
    s.fetch = some (wordOfBytes (s.byteAt s.pc.toNat) (s.byteAt (s.pc.toNat + 1))) := by
  rw [State.fetch_eq, if_pos h]

/-- Settles O9: the fetch joins the two bytes at `pc`, the first weighing 256. -/
theorem fetchIsBigEndian : Obligations.FetchIsBigEndian :=
  fun _ h => ⟨_, State.fetch_inside h, wordOfBytes_toNat _ _⟩

/-- Registers V0 to Vx stored in order: Vr lies `r` bytes after the first (R144). -/
theorem State.byteAt_store_regsUpTo (s : State) (a : Nat) {x r : Reg} (h : r ≤ x) :
    (s.store a (s.regsUpTo x)).byteAt (a + r.val) = s.reg r := by
  have hr : r.val ≤ x.val := h
  rw [State.byteAt_store, dif_pos (by rw [State.regsUpTo_length]; omega), State.regsUpTo_getElem]
  simp only [Nat.add_sub_cancel_left]

/-- Settles O34: the store leaves `pc` where it was, and the fetch there reads Vr and Vq from the bytes stored. -/
theorem storedWordIsFetched : Obligations.StoredWordIsFetched := by
  intro x r q s hI hq hqx hpc
  have hqx' : q.val ≤ x.val := hqx
  have hhigh : (s.store s.I.toNat (s.regsUpTo x)).byteAt s.pc.toNat = s.reg r := by
    rw [hpc, s.byteAt_store_regsUpTo _ (Fin.le_def.2 (by omega))]
  have hlow : (s.store s.I.toNat (s.regsUpTo x)).byteAt (s.pc.toNat + 1) = s.reg q := by
    rw [hpc, Nat.add_assoc, ← hq, s.byteAt_store_regsUpTo _ hqx]
  refine ⟨_, exec_ldImemVx_inside x hI, ?_⟩
  rw [← hhigh, ← hlow]
  exact State.fetch_inside (by simp only [State.setI_pc, State.store_pc]; omega)

end Sys2Proof.Machine

/-! SUPPORT. The opcode map against the encoder: the words a row selects are the encodings of the row's instruction
(30_encoding.md R82, R85, R86), with the statements O1 to O6 they settle. -/

namespace Sys2Proof

/-- Every instruction's word is selected by the row of its mnemonic (R86). -/
theorem encode_selected : ∀ i : Instr, Laws.EncodingMatchesRow.Statement i
  | .cls => Laws.EncodingMatchesRow.cls
  | .ret => Laws.EncodingMatchesRow.ret
  | .jp _ => Laws.EncodingMatchesRow.jp _
  | .call _ => Laws.EncodingMatchesRow.call _
  | .seImm _ _ => Laws.EncodingMatchesRow.seImm _ _
  | .sneImm _ _ => Laws.EncodingMatchesRow.sneImm _ _
  | .seReg _ _ => Laws.EncodingMatchesRow.seReg _ _
  | .ldImm _ _ => Laws.EncodingMatchesRow.ldImm _ _
  | .addImm _ _ => Laws.EncodingMatchesRow.addImm _ _
  | .ldReg _ _ => Laws.EncodingMatchesRow.ldReg _ _
  | .or _ _ => Laws.EncodingMatchesRow.or _ _
  | .and _ _ => Laws.EncodingMatchesRow.and _ _
  | .xor _ _ => Laws.EncodingMatchesRow.xor _ _
  | .addReg _ _ => Laws.EncodingMatchesRow.addReg _ _
  | .sub _ _ => Laws.EncodingMatchesRow.sub _ _
  | .shr _ _ => Laws.EncodingMatchesRow.shr _ _
  | .subn _ _ => Laws.EncodingMatchesRow.subn _ _
  | .shl _ _ => Laws.EncodingMatchesRow.shl _ _
  | .sneReg _ _ => Laws.EncodingMatchesRow.sneReg _ _
  | .ldI _ => Laws.EncodingMatchesRow.ldI _
  | .jpV0 _ => Laws.EncodingMatchesRow.jpV0 _
  | .rnd _ _ => Laws.EncodingMatchesRow.rnd _ _
  | .drw _ _ _ => Laws.EncodingMatchesRow.drw _ _ _
  | .skp _ => Laws.EncodingMatchesRow.skp _
  | .sknp _ => Laws.EncodingMatchesRow.sknp _
  | .ldVxDt _ => Laws.EncodingMatchesRow.ldVxDt _
  | .ldVxK _ => Laws.EncodingMatchesRow.ldVxK _
  | .ldDtVx _ => Laws.EncodingMatchesRow.ldDtVx _
  | .addIVx _ => Laws.EncodingMatchesRow.addIVx _
  | .ldFVx _ => Laws.EncodingMatchesRow.ldFVx _
  | .ldBVx _ => Laws.EncodingMatchesRow.ldBVx _
  | .ldImemVx _ => Laws.EncodingMatchesRow.ldImemVx _
  | .ldVxImem _ => Laws.EncodingMatchesRow.ldVxImem _

/-! ## A word whose masked bits are a format's fixed fields is that format's word with the other fields read from it -/

theorem eq_of_mask_FFFF {op w : Word} (h : op &&& 0xFFFF = w) : w = op := h.symm.trans BitVec.and_allOnes

theorem fieldFam_of_mask_F000 {op : Word} {fam : BitVec 4} (h : op &&& 0xF000 = encodeNnn fam 0) :
    (fieldFam op).toNat = fam.toNat := by
  rw [mask_F000] at h
  simpa using congrArg (BitVec.toNat ∘ fieldFam) h

theorem encodeNnn_of_mask_F000 {op : Word} {fam : BitVec 4} (h : op &&& 0xF000 = encodeNnn fam 0) :
    encodeNnn fam (fieldNnn op) = op := encodeNnn_of_fam (fieldFam_of_mask_F000 h)

theorem encodeXkk_of_mask_F000 {op : Word} {fam : BitVec 4} (h : op &&& 0xF000 = encodeNnn fam 0) :
    encodeXkk fam (fieldX op) (fieldKk op) = op := encodeXkk_of_fam (fieldFam_of_mask_F000 h)

theorem encodeXyn_of_mask_F000 {op : Word} {fam : BitVec 4} (h : op &&& 0xF000 = encodeNnn fam 0) :
    encodeXyn fam (fieldX op) (fieldY op) (BitVec.ofNat 4 (fieldN op).toNat) = op :=
  encodeXyn_of_fam_n (fieldFam_of_mask_F000 h) (by rw [BitVec.ofNat_toNat, BitVec.setWidth_eq])

theorem encodeXyn_of_mask_F00F {op : Word} {fam n : BitVec 4} (h : op &&& 0xF00F = encodeXyn fam 0 0 n) :
    encodeXyn fam (fieldX op) (fieldY op) n = op := by
  rw [mask_F00F] at h
  exact encodeXyn_of_fam_n (by simpa using congrArg (BitVec.toNat ∘ fieldFam) h)
    (by simpa using congrArg (BitVec.toNat ∘ fieldN) h)

theorem encodeXkk_of_mask_F0FF {op : Word} {fam : BitVec 4} {kk : Byte} (h : op &&& 0xF0FF = encodeXkk fam 0 kk) :
    encodeXkk fam (fieldX op) kk = op := by
  rw [mask_F0FF] at h
  exact encodeXkk_of_fam_kk (by simpa using congrArg (BitVec.toNat ∘ fieldFam) h)
    (by simpa using congrArg (BitVec.toNat ∘ fieldKk) h)

/-- A word that a row selects is the encoding of a well-formed instruction of that row. -/
theorem exists_encode_of_selected (op : Word) : ∀ row ∈ opcodeRows, op &&& row.mask = row.pattern →
    ∃ i : Instr, i.wellFormed = true ∧ encode i = op ∧ i.mnemonic = row.mnemonic := by
  simp only [opcodeRows, List.forall_mem_cons, List.not_mem_nil, false_implies, implies_true, and_true]
  exact ⟨
    fun h => ⟨.cls, rfl, eq_of_mask_FFFF h, rfl⟩,
    fun h => ⟨.ret, rfl, eq_of_mask_FFFF h, rfl⟩,
    fun h => ⟨.jp _, addressOk_fieldNnn op, encodeNnn_of_mask_F000 h, rfl⟩,
    fun h => ⟨.call _, addressOk_fieldNnn op, encodeNnn_of_mask_F000 h, rfl⟩,
    fun h => ⟨.seImm _ _, rfl, encodeXkk_of_mask_F000 h, rfl⟩,
    fun h => ⟨.sneImm _ _, rfl, encodeXkk_of_mask_F000 h, rfl⟩,
    fun h => ⟨.seReg _ _, rfl, encodeXyn_of_mask_F00F h, rfl⟩,
    fun h => ⟨.ldImm _ _, rfl, encodeXkk_of_mask_F000 h, rfl⟩,
    fun h => ⟨.addImm _ _, rfl, encodeXkk_of_mask_F000 h, rfl⟩,
    fun h => ⟨.ldReg _ _, rfl, encodeXyn_of_mask_F00F h, rfl⟩,
    fun h => ⟨.or _ _, rfl, encodeXyn_of_mask_F00F h, rfl⟩,
    fun h => ⟨.and _ _, rfl, encodeXyn_of_mask_F00F h, rfl⟩,
    fun h => ⟨.xor _ _, rfl, encodeXyn_of_mask_F00F h, rfl⟩,
    fun h => ⟨.addReg _ _, rfl, encodeXyn_of_mask_F00F h, rfl⟩,
    fun h => ⟨.sub _ _, rfl, encodeXyn_of_mask_F00F h, rfl⟩,
    fun h => ⟨.shr _ _, rfl, encodeXyn_of_mask_F00F h, rfl⟩,
    fun h => ⟨.subn _ _, rfl, encodeXyn_of_mask_F00F h, rfl⟩,
    fun h => ⟨.shl _ _, rfl, encodeXyn_of_mask_F00F h, rfl⟩,
    fun h => ⟨.sneReg _ _, rfl, encodeXyn_of_mask_F00F h, rfl⟩,
    fun h => ⟨.ldI _, addressOk_fieldNnn op, encodeNnn_of_mask_F000 h, rfl⟩,
    fun h => ⟨.jpV0 _, addressOk_fieldNnn op, encodeNnn_of_mask_F000 h, rfl⟩,
    fun h => ⟨.rnd _ _, rfl, encodeXkk_of_mask_F000 h, rfl⟩,
    fun h => ⟨.drw _ _ _, countOk_fieldN op, encodeXyn_of_mask_F000 h, rfl⟩,
    fun h => ⟨.skp _, rfl, encodeXkk_of_mask_F0FF h, rfl⟩,
    fun h => ⟨.sknp _, rfl, encodeXkk_of_mask_F0FF h, rfl⟩,
    fun h => ⟨.ldVxDt _, rfl, encodeXkk_of_mask_F0FF h, rfl⟩,
    fun h => ⟨.ldVxK _, rfl, encodeXkk_of_mask_F0FF h, rfl⟩,
    fun h => ⟨.ldDtVx _, rfl, encodeXkk_of_mask_F0FF h, rfl⟩,
    fun h => ⟨.addIVx _, rfl, encodeXkk_of_mask_F0FF h, rfl⟩,
    fun h => ⟨.ldFVx _, rfl, encodeXkk_of_mask_F0FF h, rfl⟩,
    fun h => ⟨.ldBVx _, rfl, encodeXkk_of_mask_F0FF h, rfl⟩,
    fun h => ⟨.ldImemVx _, rfl, encodeXkk_of_mask_F0FF h, rfl⟩,
    fun h => ⟨.ldVxImem _, rfl, encodeXkk_of_mask_F0FF h, rfl⟩⟩

/-- Two different rows disagree on a bit that both masks keep. -/
theorem opcodeRows_eq_of_agree : ∀ r₁ ∈ opcodeRows, ∀ r₂ ∈ opcodeRows,
    r₁.pattern &&& r₂.mask = r₂.pattern &&& r₁.mask → r₁ = r₂ := by decide

/-- Settles O2: the dispatch of R85 reads each format's fields back. -/
theorem decodeOfEncode : Obligations.DecodeOfEncode := fun _ => decode_encode

/-- Settles O3: every row the dispatch answers is well-formed and makes the word again from its fields. -/
theorem encodeOfDecode : Obligations.EncodeOfDecode := fun _ _ => decode_sound

/-- Settles O4: a selected word is the encoding of an instruction of the row, and the decoder reads it back. -/
theorem decodeFollowsOpcodeRows : Obligations.DecodeFollowsOpcodeRows := by
  intro op row hrow hsel
  obtain ⟨i, hi, rfl, hm⟩ := exists_encode_of_selected op row hrow hsel
  exact ⟨i, decode_encode hi, hm⟩

/-- Settles O5: a selected word decodes (O4), and a word that decodes is selected by its instruction's own row. -/
theorem unknownExactlyWhenNoRow : Obligations.UnknownExactlyWhenNoRow := by
  intro op
  constructor
  · intro herr row hrow hsel
    obtain ⟨i, hok, -⟩ := decodeFollowsOpcodeRows op row hrow hsel
    cases hok.symm.trans herr
  · intro hnone
    cases hd : decode op with
    | error e => rw [((Machine.decode_eq_error_iff op e).1 hd).2]
    | ok i =>
      obtain ⟨row, hrow, -, hsel⟩ := encode_selected i
      rw [(decode_sound hd).2] at hsel
      exact absurd hsel (hnone row hrow)

/-- Settles O6: the word's bits under both masks are the bits of both rows' patterns. -/
theorem opcodeRowsDisjoint : Obligations.OpcodeRowsDisjoint := by
  intro op r₁ r₂ hr₁ hr₂ h₁ h₂
  refine opcodeRows_eq_of_agree r₁ hr₁ r₂ hr₂ ?_
  calc r₁.pattern &&& r₂.mask
    _ = op &&& r₁.mask &&& r₂.mask := by rw [h₁]
    _ = op &&& r₂.mask &&& r₁.mask := by rw [BitVec.and_assoc, BitVec.and_comm r₁.mask, ← BitVec.and_assoc]
    _ = r₂.pattern &&& r₁.mask := by rw [h₂]

/-- Settles O1: the dispatch of R85 evaluated at each word. -/
theorem sampleWordsDecode : Obligations.SampleWordsDecode :=
  ⟨rfl, rfl, rfl, rfl, rfl, rfl, rfl, rfl, rfl, rfl, rfl, rfl, rfl, rfl, rfl, rfl, rfl, rfl, rfl⟩

/-- Two bytes that a stream begins with and that decode are a word that decodes (R57, R80). -/
theorem decode_of_decodeBytes {high low : Byte} {bs rest : List Byte} {i : Instr}
    (h : decodeBytes (high :: low :: bs) = .ok (i, rest)) : decode (wordOfBytes high low) = .ok i := by
  rw [decodeBytes] at h
  cases hd : decode (wordOfBytes high low) with
  | ok j => rw [hd] at h; cases h; rfl
  | error e => rw [hd] at h; cases h

end Sys2Proof

/-! SUPPORT. The whole cycle: fetch, decode, execute, and that it always has a next state (30_encoding.md R84, R87, R89),
with the statements O8, O11 and O12 it settles. -/

namespace Sys2Proof.Machine

/-- The execute stage of every instruction has a next state: the fatal condition, or the effect. -/
theorem exec_total (i : Instr) (s : State) : ∃ t, exec i s = .next t := by
  cases hc : faultCause i s with
  | some c => exact ⟨_, exec_of_faultCause hc⟩
  | none => exact ⟨_, exec_of_no_faultCause hc⟩

theorem cycleTurn_total (s : State) : ∃ t, cycleTurn s = .next t := by
  by_cases hr : s.run = .running
  · cases hf : s.fetch with
    | none => exact ⟨_, cycleTurn_fetchFault hr hf⟩
    | some op =>
      cases hd : decode op with
      | ok i => rw [cycleTurn_instruction hr hf hd]; exact exec_total i s.advance
      | error e => exact ⟨_, cycleTurn_unknown hr hf hd⟩
  · exact ⟨s, cycleTurn_ended hr⟩

/-- Settles O12: a cycle faults at the fetch, reports an unknown word, executes, or leaves an ended machine as it is. -/
theorem everyCycleHasNextState : Obligations.EveryCycleHasNextState := by
  intro s hi
  obtain ⟨t, ht⟩ := cycleTurn_total s
  exact ⟨t.consumeInput, by rw [step_cycle hi, ht, consumed]⟩

/-- Settles O11: no row selects the word, so it is unknown (O5), and the address reported is the one before the advance. -/
theorem unknownWordOnlyAdvances : Obligations.UnknownWordOnlyAdvances := by
  intro s op hr hi hf hnone
  have haddr : s.advance.pc - 2 = s.pc := BitVec.add_sub_cancel _ _
  rw [step_cycle hi, cycleTurn_unknown hr hf ((unknownExactlyWhenNoRow op).2 hnone), State.unknownOpcode, haddr]
  rfl

/-- Settles O8: the bytes decoded are the word fetched. -/
theorem stepRunsDecodedInstruction : Obligations.StepRunsDecodedInstruction := by
  intro s i hr hi hp hd
  rw [step_cycle hi, cycleTurn_instruction hr (State.fetch_inside hp) (decode_of_decodeBytes hd), State.advance]

end Sys2Proof.Machine

/-! SUPPORT. Jumps, calls and skips (40_flow.md R100 to R107), with the statements O13 to O17, O19 and O20 they settle. -/

namespace Sys2Proof.Machine

/-! ## Jumps -/

/-- A fetch fails exactly where the second of its two bytes would lie beyond memory (R60). -/
theorem State.fetch_eq_none_iff (s : State) : s.fetch = none ↔ 0xFFF ≤ s.pc.toNat := by
  rw [State.fetch_eq]
  split
  · next hp => exact iff_of_false nofun (by omega)
  · next hp => exact iff_of_true rfl (by omega)

/-- Settles O13: JP writes `pc` only, and the next fetch looks at that `pc`. -/
theorem jumpGoesToTarget : Obligations.JumpGoesToTarget :=
  fun nnn s => ⟨_, rfl, s.setPc_pc nnn, s.setPc_onlyPc nnn, (s.setPc nnn).fetch_eq_none_iff⟩

theorem zext16_toNat (b : Byte) : (zext16 b).toNat = b.toNat := BitVec.toNat_setWidth_of_le (by decide)

/-- Settles O14: a 12-bit address and a byte have a sum of at most 0x10FE, so the 16-bit sum does not wrap. -/
theorem jumpV0AddsV0 : Obligations.JumpV0AddsV0 := by
  intro nnn s hn
  have hv : (s.reg 0).toNat < 0x100 := (s.reg 0).isLt
  refine ⟨_, rfl, ?_, s.setPc_onlyPc _⟩
  rw [State.setPc_pc, BitVec.toNat_add_of_lt (by rw [zext16_toNat]; omega), zext16_toNat]

/-! ## The call stack -/

/-- Settles O15: with room CALL pushes the advanced `pc` and jumps; the push says what each slot holds. -/
theorem callPushesReturnAddress : Obligations.CallPushesReturnAddress := by
  intro nnn s hroom
  obtain ⟨hsp, hslots⟩ := s.push_spec s.pc hroom
  exact ⟨_, exec_call_room nnn hroom.ne, rfl, hsp, hslots, rfl, fun _ _ => rfl, fun _ => rfl⟩

/-- Settles O16: with an address held RET pops the newest slot. -/
theorem returnPopsReturnAddress : Obligations.ReturnPopsReturnAddress := by
  intro s j hj
  obtain ⟨hpc, hsp⟩ := s.pop_spec j hj
  exact ⟨_, exec_ret_held (by omega), hpc, hsp, rfl, fun _ _ => rfl, fun _ => rfl⟩

/-- Settles O17: the slot RET pops (O16) is the one CALL wrote (O15), at the depth before the CALL. -/
theorem callThenReturn : Obligations.CallThenReturn := by
  intro nnn s hroom
  obtain ⟨t, ht, -, hsp, hslots, -⟩ := callPushesReturnAddress nnn s hroom
  refine ⟨t, ht, fun u hstack hdepth => ?_⟩
  obtain ⟨w, hw, hpc, hback, -⟩ := returnPopsReturnAddress u ⟨s.sp.val, hroom⟩ (by rw [hdepth, hsp])
  have hslot : u.stack[s.sp.val] = s.pc := by
    simp only [hstack]
    exact (hslots ⟨s.sp.val, hroom⟩).trans (if_pos rfl)
  exact ⟨w, hw, hpc.trans hslot, Fin.ext hback⟩

/-! ## Skips -/

section Skip
variable (s : State) {p : Prop} [Decidable p]

/-- A skip, taken or not, changes `pc` only (R109). -/
theorem State.skipIf_onlyPc (c : Bool) : OnlyPc s (s.skipIf c) := (s.skipIf_spec c).1

theorem State.skipIf_pc_of_pos (h : p) : (s.skipIf (decide p)).pc = s.pc + 2 :=
  (s.skipIf_spec _).2.trans (if_pos (decide_eq_true h))

theorem State.skipIf_pc_of_neg (h : ¬ p) : (s.skipIf (decide p)).pc = s.pc :=
  (s.skipIf_spec _).2.trans (if_neg (by simpa using h))

end Skip

/-- A word that is the encoding of a well-formed instruction decodes to it. -/
theorem decode_of_encode_eq {op : Word} {i : Instr} (hi : i.wellFormed = true) (h : encode i = op) :
    decode op = .ok i := h ▸ decode_encode hi

/-- Settles O19: the masked bits make the word the encoding of the skip with its fields, and each skip decides its own
condition. -/
theorem skipOnImmediate : Obligations.SkipOnImmediate := by
  refine ⟨fun op h => decode_of_encode_eq rfl (encodeXkk_of_mask_F000 h),
    fun op h => decode_of_encode_eq rfl (encodeXkk_of_mask_F000 h), fun x kk s => ⟨?_, ?_⟩⟩
  · exact ⟨_, rfl, s.skipIf_onlyPc _, s.skipIf_pc_of_pos, s.skipIf_pc_of_neg⟩
  · exact ⟨_, rfl, s.skipIf_onlyPc _, s.skipIf_pc_of_pos, fun heq => s.skipIf_pc_of_neg (not_not_intro heq)⟩

/-- Settles O20: each skip decides its own condition, and a register equals itself. -/
theorem skipOnRegisters : Obligations.SkipOnRegisters := by
  intro x y s
  constructor
  · refine ⟨_, rfl, s.skipIf_onlyPc _, s.skipIf_pc_of_pos, s.skipIf_pc_of_neg, ?_⟩
    rintro rfl
    exact s.skipIf_pc_of_pos rfl
  · have hstay : s.reg x = s.reg y → (s.skipIf (decide (s.reg x ≠ s.reg y))).pc = s.pc :=
      fun heq => s.skipIf_pc_of_neg (not_not_intro heq)
    exact ⟨_, rfl, s.skipIf_onlyPc _, s.skipIf_pc_of_pos, hstay, fun hxy => hstay (congrArg s.reg hxy)⟩

end Sys2Proof.Machine

/-! SUPPORT. Register loads, arithmetic, logic, shifts and random (41_alu.md R120 to R133): which numbers the results and
flags are, with the statements O21 to O27 they settle. -/

namespace Sys2Proof.Machine

/-! ## What the flag template leaves in Vx and in VF -/

/-- The flag is written last, so VF holds it even when x is F (R132; the spec's decision D5). -/
@[simp] theorem State.reg_setResultFlag_vf (s : State) (x : Reg) (res f : Byte) :
    (s.setResultFlag x res f).reg Reg.vf = f := State.reg_setReg_self _ _ _

theorem State.reg_setResultFlag_result (s : State) {x : Reg} (res f : Byte) (h : x ≠ Reg.vf) :
    (s.setResultFlag x res f).reg x = res :=
  (State.reg_setReg_ne _ f h).trans (s.reg_setReg_self x res)

/-- Writing back what a register holds changes nothing. -/
@[simp] theorem State.setReg_reg_self (s : State) (x : Reg) : s.setReg x (s.reg x) = s := by
  rw [State.setReg, State.reg, Vector.set_getElem_self]

/-! ## The results as numbers -/

theorem sumByte_toNat (a b : Byte) : (sumByte a b).toNat = (a.toNat + b.toNat) % 256 := BitVec.toNat_ofNat _ _

theorem sumByte_zero (a : Byte) : sumByte a 0 = a :=
  (BitVec.ofNat_toNat 8 a).trans (BitVec.setWidth_eq a)

theorem differenceByte_toNat (a b : Byte) : (differenceByte a b).toNat = (a.toNat + 256 - b.toNat) % 256 :=
  BitVec.toNat_ofNat _ _

theorem differenceByte_toNat_of_le {a b : Byte} (h : b.toNat ≤ a.toNat) :
    (differenceByte a b).toNat = a.toNat - b.toNat := by
  have ha : a.toNat < 256 := a.isLt
  rw [differenceByte_toNat]
  omega

theorem differenceByte_toNat_of_lt {a b : Byte} (h : a.toNat < b.toNat) :
    (differenceByte a b).toNat = a.toNat + 256 - b.toNat := by
  rw [differenceByte_toNat]
  omega

theorem shiftRightByte_toNat (a : Byte) : (shiftRightByte a).toNat = a.toNat / 2 := by
  have ha : a.toNat < 256 := a.isLt
  rw [shiftRightByte, BitVec.toNat_ofNat]
  omega

theorem shiftLeftByte_toNat (a : Byte) : (shiftLeftByte a).toNat = a.toNat * 2 % 256 := BitVec.toNat_ofNat _ _

/-! ## The flags -/

theorem flagByte_toNat (c : Bool) : (flagByte c).toNat = c.toNat := by cases c <;> rfl

section Flag
variable {p : Prop} [Decidable p]

theorem flagByte_of_pos (h : p) : flagByte (decide p) = 1 := by rw [decide_eq_true h, flagByte, if_pos rfl]

theorem flagByte_of_neg (h : ¬ p) : flagByte (decide p) = 0 := by rw [decide_eq_false h]; rfl

end Flag

theorem lowBit_toNat (a : Byte) : (lowBit a).toNat = a.toNat % 2 := by
  rw [lowBit, flagByte_toNat, BitVec.getLsbD, Nat.toNat_testBit, pow_zero, Nat.div_one]

theorem highBit_toNat (a : Byte) : (highBit a).toNat = a.toNat / 128 := by
  have ha : a.toNat < 256 := a.isLt
  rw [highBit, flagByte_toNat, BitVec.getLsbD, Nat.toNat_testBit]
  omega

/-! ## The statements -/

/-- Settles O21: the masked bits make the word the encoding of the load with its fields, and a load is one register write. -/
theorem loadsIntoRegister : Obligations.LoadsIntoRegister :=
  ⟨fun _ h => decode_of_encode_eq rfl (encodeXkk_of_mask_F000 h),
    fun _ h => decode_of_encode_eq rfl (encodeXyn_of_mask_F00F h),
    fun x kk s => ⟨_, rfl, s.reg_setReg_self x kk, s.setReg_onlyRegs x kk⟩,
    fun x _ s => ⟨_, rfl, s.reg_setReg_self x _, s.setReg_onlyRegs x _⟩⟩

/-- Settles O22: one register write of the sum; a sum with 0 writes back what the register holds. -/
theorem addImmediateWraps : Obligations.AddImmediateWraps := by
  refine ⟨fun _ h => decode_of_encode_eq rfl (encodeXkk_of_mask_F000 h), fun x kk s => ?_⟩
  refine ⟨_, rfl, ?_, s.setReg_onlyRegs x _, ?_⟩
  · rw [State.reg_setReg_self, sumByte_toNat]
  · rintro rfl
    rw [sumByte_zero, State.setReg_reg_self]

/-- Settles O23: the flag template with flag 0; its result is the bitwise operation on the values read before. -/
theorem logicClearsFlag : Obligations.LogicClearsFlag := by
  intro x y s
  refine ⟨⟨_, rfl, s.reg_setResultFlag_vf x _ 0, s.setResultFlag_onlyRegs x _ 0, fun hx k _ => ?_⟩,
    ⟨_, rfl, s.reg_setResultFlag_vf x _ 0, s.setResultFlag_onlyRegs x _ 0, fun hx k _ => ?_⟩,
    ⟨_, rfl, s.reg_setResultFlag_vf x _ 0, s.setResultFlag_onlyRegs x _ 0, fun hx k _ => ?_⟩⟩
  · rw [s.reg_setResultFlag_result _ 0 hx, BitVec.getLsbD_or]
  · rw [s.reg_setResultFlag_result _ 0 hx, BitVec.getLsbD_and]
  · rw [s.reg_setResultFlag_result _ 0 hx, BitVec.getLsbD_xor]

/-- Settles O24: the flag template with the sum and the carry of the values read before. -/
theorem addSetsCarry : Obligations.AddSetsCarry := by
  intro x y s
  refine ⟨_, rfl, s.setResultFlag_onlyRegs x _ _, fun hx => ?_, fun hcarry => ?_, fun hfits => ?_⟩
  · rw [s.reg_setResultFlag_result _ _ hx, sumByte_toNat]
  · rw [State.reg_setResultFlag_vf, carry, flagByte_of_pos hcarry]
  · rw [State.reg_setResultFlag_vf, carry, flagByte_of_neg hfits.not_gt]

/-- The flag template with a difference and its not-borrow, when there is no borrow (R127, R129, R133). -/
theorem State.setDifference_of_le (s : State) (x : Reg) {a b : Byte} (h : b.toNat ≤ a.toNat) :
    (s.setResultFlag x (differenceByte a b) (notBorrow a b)).reg Reg.vf = 1 ∧
      (x ≠ Reg.vf →
        ((s.setResultFlag x (differenceByte a b) (notBorrow a b)).reg x).toNat = a.toNat - b.toNat) := by
  refine ⟨by rw [State.reg_setResultFlag_vf, notBorrow, flagByte_of_pos h], fun hx => ?_⟩
  rw [s.reg_setResultFlag_result _ _ hx, differenceByte_toNat_of_le h]

/-- The flag template with a difference and its not-borrow, when there is a borrow (R127, R129, R133). -/
theorem State.setDifference_of_lt (s : State) (x : Reg) {a b : Byte} (h : a.toNat < b.toNat) :
    (s.setResultFlag x (differenceByte a b) (notBorrow a b)).reg Reg.vf = 0 ∧
      (x ≠ Reg.vf →
        ((s.setResultFlag x (differenceByte a b) (notBorrow a b)).reg x).toNat = a.toNat + 256 - b.toNat) := by
  refine ⟨by rw [State.reg_setResultFlag_vf, notBorrow, flagByte_of_neg h.not_ge], fun hx => ?_⟩
  rw [s.reg_setResultFlag_result _ _ hx, differenceByte_toNat_of_lt h]

/-- Settles O25: SUB and SUBN are one subtraction with the operands in either order. -/
theorem subtractSetsNotBorrow : Obligations.SubtractSetsNotBorrow :=
  fun x _ s =>
    ⟨⟨_, rfl, s.setResultFlag_onlyRegs x _ _, s.setDifference_of_le x, s.setDifference_of_lt x⟩,
      ⟨_, rfl, s.setResultFlag_onlyRegs x _ _, s.setDifference_of_le x, s.setDifference_of_lt x⟩⟩

/-- Settles O26: the flag template with the shift of Vy and the bit that leaves it. -/
theorem shiftsReadVy : Obligations.ShiftsReadVy := by
  intro x y s
  refine ⟨⟨_, rfl, s.setResultFlag_onlyRegs x _ _, ?_, fun hx => ?_⟩,
    ⟨_, rfl, s.setResultFlag_onlyRegs x _ _, ?_, fun hx => ?_⟩⟩
  · rw [State.reg_setResultFlag_vf, lowBit_toNat]
  · rw [s.reg_setResultFlag_result _ _ hx, shiftRightByte_toNat]
  · rw [State.reg_setResultFlag_vf, highBit_toNat]
  · rw [s.reg_setResultFlag_result _ _ hx, shiftLeftByte_toNat]

/-- Settles O27: one register write of the masked byte, and a bit outside the mask is 0 whatever the byte. -/
theorem randomIsMasked : Obligations.RandomIsMasked := by
  refine ⟨fun _ h => decode_of_encode_eq rfl (encodeXkk_of_mask_F000 h), fun x kk s => ?_⟩
  refine ⟨_, rfl, s.reg_setReg_self x _, s.setReg_onlyRegs x _, fun k hk => ?_⟩
  rw [State.reg_setReg_self, BitVec.getLsbD_and, hk, Bool.and_false]

end Sys2Proof.Machine

/-! SUPPORT. The index register and memory instructions (42_index_memory.md R140 to R145): the addresses they compute, the
bytes they store and the registers they load, with the statements O28 to O33 they settle. -/

namespace Sys2Proof.Machine

/-! ## Addresses -/

/-- Masking a byte with 0xF is its remainder by 16, so the glyph address is at most 0x09B and does not wrap (R142). -/
theorem glyphAddress_toNat (v : Byte) : (glyphAddress v).toNat = 0x050 + 5 * (v.toNat % 16) := by
  have hmask : (v &&& 0x0F).toNat = v.toNat % 16 := Nat.and_two_pow_sub_one_eq_mod v.toNat 4
  rw [glyphAddress, hmask, BitVec.toNat_ofNat, Config.fontBase, Config.glyphBytes]
  omega

/-- The address after the last byte of a range inside memory fits in `I`, even where it is 0x1000 (R144, R145). -/
theorem addressAfter_toNat {a : Nat} (h : a ≤ 0xFFF) : (BitVec.ofNat 16 (a + 1)).toNat = a + 1 :=
  Nat.mod_eq_of_lt (by omega)

/-! ## Bytes stored and registers loaded -/

theorem State.store_memoryKeptOutside (s : State) (a : Nat) (bs : List Byte) :
    MemoryKeptOutside a bs.length s (s.store a bs) :=
  fun b hb => by rw [State.byteAt_store, dif_neg (by omega)]

/-- A store changes nothing but the bytes stored. -/
theorem State.store_onlyMemory (s : State) (a : Nat) (bs : List Byte) :
    OnlyMemory a bs.length false s (s.store a bs) :=
  ⟨rfl, fun _ => rfl, fun _ _ => rfl, s.store_memoryKeptOutside a bs⟩

/-- A store that then moves `I` changes nothing else. -/
theorem State.store_setI_onlyMemory (s : State) (a : Nat) (bs : List Byte) (w : Word) :
    OnlyMemory a bs.length true s ((s.store a bs).setI w) :=
  ⟨rfl, nofun, fun _ _ => rfl, s.store_memoryKeptOutside a bs⟩

theorem State.byteAt_store_getElem (s : State) (a : Nat) {bs : List Byte} {k : Nat} (h : k < bs.length) :
    (s.store a bs).byteAt (a + k) = bs[k] := by
  rw [State.byteAt_store, dif_pos (by omega)]
  simp only [Nat.add_sub_cancel_left]

/-- The three bytes of LD B as numbers: each digit is below 256, so narrowing it to a byte keeps it (R143). -/
theorem State.byteAt_store_bcdDigits (s : State) (a : Nat) (v : Byte) :
    ((s.store a (bcdDigits v)).byteAt a).toNat = v.toNat / 100 ∧
      ((s.store a (bcdDigits v)).byteAt (a + 1)).toNat = v.toNat / 10 % 10 ∧
      ((s.store a (bcdDigits v)).byteAt (a + 2)).toNat = v.toNat % 10 := by
  have hv : v.toNat < 256 := v.isLt
  have hbyte (k : Nat) (hk : k < 3) :
      ((s.store a (bcdDigits v)).byteAt (a + k)).toNat = ((bcdDigits v)[k]'hk).toNat :=
    congrArg BitVec.toNat (s.byteAt_store_getElem a hk)
  exact ⟨(hbyte 0 (by decide)).trans (Nat.mod_eq_of_lt (by omega)),
    (hbyte 1 (by decide)).trans (Nat.mod_eq_of_lt (by omega)),
    (hbyte 2 (by decide)).trans (Nat.mod_eq_of_lt (by omega))⟩

/-- LD Vx, [I] gives Vr the byte `r` places after the first (R145). -/
theorem effect_ldVxImem_reg (s : State) {x r : Reg} (h : r ≤ x) :
    (effect (.ldVxImem x) s).reg r = s.byteAt (s.I.toNat + r.val) := by
  have hr : r.val ≤ x.val := h
  rw [State.reg, effect, loadRegs_getElem, dif_pos (by rw [Memory.readBytes_length]; omega),
    Memory.readBytes_getElem, Nat.sub_zero, State.byteAt]

/-! ## The statements -/

/-- Settles O28: the masked bits make the word the encoding of the load with its fields, and each load writes `I` only. -/
theorem loadsIntoIndex : Obligations.LoadsIntoIndex := by
  refine ⟨fun op h => decode_of_encode_eq (addressOk_fieldNnn op) (encodeNnn_of_mask_F000 h),
    fun _ h => decode_of_encode_eq rfl (encodeXkk_of_mask_F0FF h), fun nnn s => ?_, fun x s => ?_⟩
  · exact ⟨_, rfl, rfl, s.setI_onlyIndex nnn, fun h => Nat.lt_succ_of_le (toNat_le_of_addressOk h)⟩
  · exact ⟨_, rfl, glyphAddress_toNat (s.reg x), s.setI_onlyIndex _⟩

/-- Settles O29: the sum of two 16-bit words, one of them a byte widened. -/
theorem addToIndex : Obligations.AddToIndex := by
  intro x s
  refine ⟨_, rfl, ?_, s.setI_onlyIndex _⟩
  rw [State.setI_I, BitVec.toNat_add, zext16_toNat]

/-- Settles O30: the bytes stored are the quotients and remainders that make up Vx again. -/
theorem decimalDigitsStored : Obligations.DecimalDigitsStored := by
  intro x s hI
  obtain ⟨hhundreds, htens, hones⟩ := s.byteAt_store_bcdDigits s.I.toNat (s.reg x)
  have hv : (s.reg x).toNat < 256 := (s.reg x).isLt
  refine ⟨_, exec_ldBVx_inside x hI, s.store_onlyMemory _ _, ?_⟩
  rw [hhundreds, htens, hones]
  omega

/-- Settles O31: one store of V0 to Vx, then `I` moves past it. -/
theorem registersStored : Obligations.RegistersStored := by
  intro x s hI
  refine ⟨_, exec_ldImemVx_inside x hI, ?_, addressAfter_toNat hI, fun r hr => s.byteAt_store_regsUpTo _ hr⟩
  rw [← s.regsUpTo_length x]
  exact s.store_setI_onlyMemory _ _ _

/-- Settles O32: the registers up to x are read from memory, and the instruction's destinations (R24) say which others
stay. -/
theorem registersLoaded : Obligations.RegistersLoaded := by
  intro x s hI
  refine ⟨effect (.ldVxImem x) s, exec_ldVxImem_inside x hI, addressAfter_toNat hI,
    fun r hr => effect_ldVxImem_reg s hr, fun r hr => ?_, rfl, fun _ => rfl⟩
  exact effect_reg _ s (by simpa [destinations] using hr)

/-- Settles O33: the load (O32) reads back the bytes the store left (O31), in the same memory at the same `I`. -/
theorem storeThenLoadRestores : Obligations.StoreThenLoadRestores := by
  intro x s u hI
  obtain ⟨t, ht, -, -, hstored⟩ := registersStored x s hI
  refine ⟨t, ht, fun hmem hindex => ?_⟩
  obtain ⟨w, hw, -, hloaded, -⟩ := registersLoaded x u (by rwa [hindex])
  refine ⟨w, hw, fun r hr => ?_⟩
  rw [hloaded r hr, hindex, State.byteAt, hmem]
  exact hstored r hr

end Sys2Proof.Machine

/-! SUPPORT. The display instructions (43_display.md R150 to R154): which pixels a draw flips and what VF reports, with the
statements O35 to O37 they settle. -/

namespace Sys2Proof.Machine

/-! ## Clearing -/

theorem Screen.eq_off {fb : Screen} (h : ∀ px py, fb.pixel px py = false) : fb = Screen.off :=
  Screen.ext_pixel fun px py => (h px py).trans (Screen.pixel_off px py).symm

theorem State.setFb_fb_self (s : State) : s.setFb s.fb = s := rfl

/-- Settles O35: the screen becomes the one with every pixel off, and a clear screen is that screen already. -/
theorem clearTurnsAllPixelsOff : Obligations.ClearTurnsAllPixelsOff := by
  refine ⟨fun op => ⟨fun h => (decode_sound h).2.symm, fun h => decode_of_encode_eq rfl h.symm⟩, fun s => ?_⟩
  refine ⟨_, rfl, Screen.pixel_off, rfl, fun _ _ => rfl, fun _ => rfl, fun hclear => ?_⟩
  rw [← Screen.eq_off hclear, State.setFb_fb_self]

/-! ## Drawing -/

/-- The rows read from memory at `I` cover the pixels that the sprite's 1 bits land on. -/
theorem rowsCover_readBytes_iff (s : State) (x y : Reg) (n : Nat) (px : Fin 64) (py : Fin 32) :
    RowsCover (Memory.readBytes s.mem s.I.toNat n) (s.reg x) (s.reg y) 0 px py ↔ SpriteCovers s x y n px py := by
  constructor
  · rintro ⟨row, hrow, ⟨col, hcol, hbit, hpx⟩, hpy⟩
    rw [Memory.readBytes_getElem] at hbit
    rw [Memory.readBytes_length] at hrow
    rw [Nat.zero_add] at hpy
    exact ⟨row, col, hrow, hcol, hbit, congrArg Fin.val hpx, congrArg Fin.val hpy⟩
  · rintro ⟨row, col, hrow, hcol, hbit, hpx, hpy⟩
    refine ⟨row, by rwa [Memory.readBytes_length], ⟨col, hcol, ?_, Fin.ext hpx⟩, ?_⟩
    · rwa [Memory.readBytes_getElem]
    · rw [Nat.zero_add]; exact Fin.ext hpy

/-- At most 15 rows, so no two of them land on one screen row, and each covered pixel flips once (R152). -/
theorem drawnCanvas_flipped (s : State) (x y : Reg) {n : Nat} (hn : n < 16) :
    Flipped (SpriteCovers s x y n) ⟨s.fb, false⟩ (drawnCanvas x y n s) := by
  have hrows : RowsCover (Memory.readBytes s.mem s.I.toNat n) (s.reg x) (s.reg y) 0 = SpriteCovers s x y n :=
    funext₂ fun px py => propext (rowsCover_readBytes_iff s x y n px py)
  rw [← hrows]
  exact Canvas.drawRows_flipped _ _ _ 0 _ (by rw [Memory.readBytes_length]; omega)

theorem drawnCanvas_collision_iff (s : State) (x y : Reg) {n : Nat} (hn : n < 16) :
    (drawnCanvas x y n s).collision = true ↔ ∃ px py, SpriteCovers s x y n px py ∧ s.fb.pixel px py = true :=
  (drawnCanvas_flipped s x y hn).collides.trans (or_iff_right Bool.false_ne_true)

theorem effect_drw_reg_vf (s : State) (x y : Reg) (n : Nat) :
    (effect (.drw x y n) s).reg Reg.vf = flagByte (drawnCanvas x y n s).collision := State.reg_setReg_self _ _ _

/-- Settles O36: the screen and VF are those of the canvas drawn, and VF is the instruction's only destination (R24). -/
theorem drawXorsSprite : Obligations.DrawXorsSprite := by
  intro x y n s hn hI
  have hflip := drawnCanvas_flipped s x y hn
  refine ⟨effect (.drw x y n) s, exec_drw_inside x y n hI, hflip.flips, hflip.keeps, fun hon => ?_, fun hoff => ?_, rfl,
    fun _ => effect_reg (.drw x y n) s, fun _ => rfl⟩
  · rw [effect_drw_reg_vf, (drawnCanvas_collision_iff s x y hn).2 hon]; rfl
  · rw [effect_drw_reg_vf, Bool.eq_false_iff.2 (mt (drawnCanvas_collision_iff s x y hn).1 hoff)]; rfl

/-! ## Drawing twice -/

/-- Which pixels a sprite covers is decided by its bytes, `I` and the two position registers. -/
theorem spriteCovers_congr {s t : State} {x y : Reg} (n : Nat) (hI : t.I = s.I) (hx : t.reg x = s.reg x)
    (hy : t.reg y = s.reg y) (hmem : ∀ a, t.byteAt a = s.byteAt a) : SpriteCovers t x y n = SpriteCovers s x y n := by
  funext px py
  simp only [SpriteCovers, hI, hx, hy, hmem]

/-- Settles O37: both draws (O36) cover the same pixels, so the second flips each of them back; on a clear screen the pixels
that are on between the two are covered ones. -/
theorem drawTwiceErases : Obligations.DrawTwiceErases := by
  intro x y n s hx hy hn hI
  obtain ⟨t, ht, htflips, htkeeps, -, htmiss, htframe, htregs, htmem⟩ := drawXorsSprite x y n s hn hI
  have htI : t.I = s.I := (congrArg State.I htframe :)
  have hcovers : SpriteCovers t x y n = SpriteCovers s x y n :=
    spriteCovers_congr n htI (htregs x (by simpa using hx)) (htregs y (by simpa using hy)) htmem
  obtain ⟨u, hu, huflips, hukeeps, huhit, humiss, -⟩ := drawXorsSprite x y n t hn (by rwa [htI])
  rw [hcovers] at huflips hukeeps huhit humiss
  refine ⟨t, u, ht, hu, Screen.ext_pixel fun px py => ?_, fun hclear => ⟨htmiss ?_, fun hvf => ?_, ?_⟩⟩
  · by_cases hc : SpriteCovers s x y n px py
    · rw [huflips px py hc, htflips px py hc, Bool.not_not]
    · rw [hukeeps px py hc, htkeeps px py hc]
  · rintro ⟨px, py, -, hon⟩
    exact absurd hon (by simp [hclear])
  · by_contra hoff
    have hvf' : u.reg Reg.vf = 0 := humiss fun ⟨px, py, _, hon⟩ => hoff ⟨px, py, hon⟩
    exact absurd (hvf.symm.trans hvf') (by decide)
  · rintro ⟨px, py, hon⟩
    refine huhit ⟨px, py, ?_, hon⟩
    by_contra hc
    rw [htkeeps px py hc, hclear] at hon
    exact Bool.false_ne_true hon

end Sys2Proof.Machine

/-! SUPPORT. The keyboard and delay-timer instructions (44_keys_timer.md R160 to R164), with the statements O38 to O41
that they settle. -/

namespace Sys2Proof.Machine

/-! ## Skips on a key -/

section KeySkip
variable (s : State) {c : Bool}

theorem State.skipIf_pc_of_true (h : c = true) : (s.skipIf c).pc = s.pc + 2 :=
  (s.skipIf_spec c).2.trans (if_pos h)

theorem State.skipIf_pc_of_false (h : c = false) : (s.skipIf c).pc = s.pc :=
  (s.skipIf_spec c).2.trans (if_neg (Bool.eq_false_iff.1 h))

end KeySkip

/-- Settles O38: Vx names key k, so SKP skips on the answer for k and SKNP on its negation. -/
theorem skipOnKeyState : Obligations.SkipOnKeyState := by
  intro x k s hk
  constructor
  · exact ⟨_, exec_skp_key x k hk, s.skipIf_onlyPc _, s.skipIf_pc_of_true, s.skipIf_pc_of_false⟩
  · exact ⟨_, exec_sknp_key x k hk, s.skipIf_onlyPc _, fun hup => s.skipIf_pc_of_true (congrArg Bool.not hup),
      fun hdown => s.skipIf_pc_of_false (congrArg Bool.not hdown)⟩

/-! ## Waiting for a key -/

/-- A key number is at most 15, so it fits in a byte. -/
theorem keyByte_toNat (k : Key) : (keyByte k).toNat = k.val := Nat.mod_eq_of_lt (by omega)

/-- Going back to the instruction just fetched writes `pc` only. -/
theorem State.rewind_onlyPc (s : State) : OnlyPc s s.rewind := s.setPc_onlyPc (s.pc - 2)

/-- Going back undoes the fetch advance. -/
theorem State.advance_rewind (s : State) : s.advance.rewind = s := by
  rw [State.rewind, State.advance_pc, BitVec.add_sub_cancel]
  rfl

/-- Settles O39: the two answers to the query are the two cases of the instruction. -/
theorem keyWaitOrLoad : Obligations.KeyWaitOrLoad := by
  intro x s
  refine ⟨fun hnone => ?_, fun k hsome => ?_⟩
  · exact ⟨_, exec_ldVxK_none x hnone, s.rewind_pc, s.rewind_onlyPc⟩
  · refine ⟨_, exec_ldVxK_some x k hsome, ?_, s.setReg_onlyRegs x _⟩
    rw [State.reg_setReg_self, keyByte_toNat]

/-- Settles O40: with no key down the cycle advances `pc` and goes back, so only the input is used up. -/
theorem waitingCycleChangesNothing : Obligations.WaitingCycleChangesNothing := by
  intro s op x hr hi hf hd hnone
  have hexec : exec (.ldVxK x) s.advance = .next s.advance.rewind := exec_ldVxK_none x hnone
  rw [step_cycle hi, cycleTurn_instruction hr hf hd, hexec, State.advance_rewind, consumed]

/-! ## The delay timer -/

/-- Settles O41: LD Vx, DT is one register write, LD DT, Vx a write of the timer only. -/
theorem timerReadAndWritten : Obligations.TimerReadAndWritten := by
  intro x s
  constructor
  · exact ⟨_, rfl, s.reg_setReg_self x s.dt, s.setReg_onlyRegs x s.dt⟩
  · exact ⟨_, rfl, s.setDt_dt (s.reg x), rfl, fun _ _ => rfl, fun _ => rfl⟩

end Sys2Proof.Machine

/-! SUPPORT. Fatal conditions, ticks and stop requests (60_exceptions.md R181 to R193, R201), with the statements O10, O18
and O42 to O47 that they settle. -/

namespace Sys2Proof.Machine

/-! ## Fatal conditions -/

/-- Settles O18: the two stack faults are the fatal cases of CALL and RET, and raising one changes nothing else. -/
theorem stackFaultsHalt : Obligations.StackFaultsHalt :=
  ⟨fun nnn s hfull => ⟨_, exec_call_full nnn hfull, s.fatal_haltsWith .stackOverflow (.call nnn)⟩,
    fun s hempty => ⟨_, exec_ret_empty hempty, s.fatal_haltsWith .stackUnderflow .ret⟩⟩

/-- Settles O42: an instruction whose cause holds raises it; every other one has its effect, which writes neither the run
state nor the diagnostics. -/
theorem fatalConditionsAreExact : Obligations.FatalConditionsAreExact := by
  intro i s
  constructor
  · intro cause hc
    exact ⟨_, exec_of_faultCause hc, s.fatal_haltsWith cause i⟩
  · intro hc
    exact ⟨_, exec_of_no_faultCause hc, effect_run i s, effect_diag i s⟩

/-- Settles O10: from 0xFFF on there is no word to fetch, so the cycle raises the fetch fault. -/
theorem fetchBeyondMemoryHalts : Obligations.FetchBeyondMemoryHalts := by
  intro s hr hi hp
  have hfault : cycleTurn s = .next s.fetchFault := cycleTurn_fetchFault hr (s.fetch_eq_none_iff.2 hp)
  exact ⟨s.fetchFault, by rw [step_cycle hi, hfault, consumed], s.raise_haltsWith _⟩

/-! ## Ticks -/

/-- A tick of a running machine without a pending stop request takes the timer one down, not below 0, and writes nothing
else (R193). -/
theorem State.tick_running_spec {s : State} (hr : s.run = .running) (hs : s.stopRequested = false) :
    s.tick.dt.toNat = s.dt.toNat - 1 ∧ s.tick = { s with dt := s.tick.dt } := by
  rw [State.tick_running hr hs]
  exact s.decrementTimer_spec

/-- Settles O44: the next state is the tick's, and a write of the timer keeps registers and memory. -/
theorem tickDecrementsTimer : Obligations.TickDecrementsTimer := by
  intro s hr hs hi
  obtain ⟨hdt, hframe⟩ := State.tick_running_spec hr hs
  refine ⟨s.tick, step_tick hi, hdt, hframe, ?_, ?_⟩
  · intro r _
    rw [hframe]; rfl
  · intro a
    rw [hframe]; rfl

/-- Settles O45, by induction on the number of ticks: the first writes the timer only, so the machine still runs with no
stop request pending, and the others count down from its timer. -/
theorem ticksCountDownToZero : Obligations.TicksCountDownToZero := by
  intro n
  induction n with
  | zero => exact fun _ _ _ => ⟨rfl, rfl⟩
  | succ n ih =>
    intro s hr hs
    obtain ⟨hdt, hframe⟩ := State.tick_running_spec hr hs
    have hrun : s.tick.run = .running := by rw [hframe]; exact hr
    have hstop : s.tick.stopRequested = false := by rw [hframe]; exact hs
    obtain ⟨hrest, hrestFrame⟩ := ih s.tick hrun hstop
    rw [Function.iterate_succ_apply]
    constructor
    · rw [hrest, hdt, Nat.sub_sub, Nat.add_comm 1 n]
    · calc State.tick^[n] s.tick = { s.tick with dt := (State.tick^[n] s.tick).dt } := hrestFrame
        _ = { s with dt := (State.tick^[n] s.tick).dt } := by rw [hframe]

/-! ## Stop requests and ended runs -/

/-- Raising a stop request while Running sets the pending bit (R201). -/
theorem State.requestStop_running {s : State} (hr : s.run = .running) :
    s.requestStop = { s with stopRequested := true } := by
  rw [State.requestStop, hr]

/-- Settles O43: in an ended run each of the three turns leaves the machine as it is. -/
theorem endedRunStaysAsItIs : Obligations.EndedRunStaysAsItIs := by
  intro s hended hreset
  cases hi : s.input.turn with
  | cycle => rw [step_cycle hi, cycleTurn_ended hended, consumed]
  | tick => rw [step_tick hi, State.tick_ended hended]
  | stop => rw [step_stop hi, State.requestStop_ended hended]
  | reset font rom => exact absurd hi (hreset font rom)

/-- Settles O46: a stop turn sets the pending bit, and a tick that finds it set ends the run in place of the decrement. -/
theorem stopTakesEffectAtTick : Obligations.StopTakesEffectAtTick := by
  intro s hr
  constructor
  · intro hi
    rw [step_stop hi, State.requestStop_running hr]
  · intro hi hs
    rw [step_tick hi, State.tick_stopping hr hs]

/-! ## A cycle does not look at the pending stop request -/

theorem effect_withStopRequested (i : Instr) (s : State) (b : Bool) :
    effect i { s with stopRequested := b } = { effect i s with stopRequested := b } := by
  cases i <;> rfl

/-- Neither the causes of R186 nor the effects look at the pending stop request, and no copy of the state in a diagnostic
holds it. -/
theorem exec_withStopRequested {i : Instr} {s t : State} (b : Bool) (he : exec i s = .next t) :
    exec i { s with stopRequested := b } = .next { t with stopRequested := b } := by
  have hfault : faultCause i { s with stopRequested := b } = faultCause i s := faultCause_congr i rfl rfl rfl
  cases exec_cases he with
  | fatal c hc => exact exec_of_faultCause (hfault.trans hc)
  | effect hc => rw [exec_of_no_faultCause (hfault.trans hc), effect_withStopRequested]

/-- A cycle from a state with another pending bit has the same result with that bit. -/
theorem CycleResult.cycleTurn_withStopRequested {s t : State} (b : Bool) (hc : CycleResult s t) :
    cycleTurn { s with stopRequested := b } = .next { t with stopRequested := b } := by
  cases hc with
  | ended hended => exact cycleTurn_ended (s := { s with stopRequested := b }) hended
  | fetchFault hr hf => exact cycleTurn_fetchFault (s := { s with stopRequested := b }) hr hf
  | unknown op hr hf hd =>
    have herr : decode op = .error (.unknownOpcode op) := (decode_eq_error_iff op _).2 ⟨hd, rfl⟩
    exact cycleTurn_unknown (s := { s with stopRequested := b }) hr hf herr
  | instruction op i _ hr hf hd he =>
    have hcycle := cycleTurn_instruction (s := { s with stopRequested := b }) hr hf hd
    exact hcycle.trans (exec_withStopRequested b he)

/-- Settles O47: the cycle's result is the same but for the pending bit, and so is the input used up. -/
theorem stopRequestUnseenByCycles : Obligations.StopRequestUnseenByCycles := by
  intro s t b hi hs
  rw [step_cycle hi] at hs
  obtain ⟨u, hu, rfl⟩ := consumed_eq_next hs
  have hcycle := (cycleTurn_cases hu).cycleTurn_withStopRequested b
  rw [step_cycle (s := { s with stopRequested := b }) hi, hcycle]
  rfl

end Sys2Proof.Machine

/-! SUPPORT. The reset of a program image that does not fit, and finished programs (70_reset_and_hazards.md R223, R225),
with the statements O49 and O60 that they settle. -/

namespace Sys2Proof.Machine

/-! ## A program image that does not fit -/

theorem resetTurn_of_too_long (s : State) (font : Vector Byte 80) {rom : List Byte} (h : Config.maxRom < rom.length) :
    resetTurn font rom s = .refused .romTooLong := if_neg (Nat.not_le_of_lt h)

/-- Settles O49: the reset turn refuses the image, and a refusal has no next state to use up the input in. -/
theorem longProgramRefused : Obligations.LongProgramRefused := by
  intro s font rom hi hlong
  rw [step_reset hi, resetTurn_of_too_long s font hlong, consumed]

/-! ## Finished programs -/

/-- A jump back to the instruction just fetched undoes the fetch advance. -/
theorem exec_jp_advance (s : State) : exec (.jp s.pc) s.advance = .next s := rfl

/-- The cycle of a finished program fetches the jump to itself and takes it, whether a stop request is pending or not. -/
theorem State.Finished.cycleTurn_eq {s : State} (h : s.Finished) : cycleTurn s = .next s := by
  obtain ⟨hrun, op, hfetch, hdecode⟩ := h
  exact (cycleTurn_instruction hrun hfetch hdecode).trans (exec_jp_advance s)

/-- Whether a program is finished is decided by the run state, `pc` and memory. -/
theorem State.Finished.congr {s t : State} (h : s.Finished) (hrun : t.run = s.run) (hpc : t.pc = s.pc)
    (hmem : t.mem = s.mem) : t.Finished := by
  have hfetch : t.fetch = s.fetch := by simp only [State.fetch_eq, State.byteAt, hpc, hmem]
  rw [State.Finished, hrun, hfetch, hpc]
  exact h

/-- Settles O60: a cycle takes the jump, and a tick writes the timer only (R193), which the predicate does not look at. -/
theorem finishedProgramStays : Obligations.FinishedProgramStays := by
  intro s hfinished
  constructor
  · intro hi
    rw [step_cycle hi, hfinished.cycleTurn_eq, consumed]
  · intro hi hstop
    obtain ⟨-, hframe⟩ := State.tick_running_spec hfinished.1 hstop
    have hnext : s.tick.consumeInput = { s.consumeInput with dt := s.tick.dt } := congrArg State.consumeInput hframe
    refine ⟨s.tick.consumeInput, step_tick hi, ?_, hnext⟩
    rw [hnext]
    exact hfinished.congr rfl rfl rfl

end Sys2Proof.Machine
